-- ==== Sys2Proof/Word.lean ====
section
/-! DEFINITION. The word types of B32T (00_scope.md R6, R7, R8): 32-bit registers and command
words, 8-bit bytes and character codes, 5-bit groups. All values are unsigned. -/

namespace Sys2Proof

/-- A register value or a command word (00_scope.md R7). -/
abbrev Word := BitVec 32

/-- A byte of a byte string, or the code of one character (00_scope.md R9). -/
abbrev Byte := BitVec 8

/-- A 5-bit unit of the bit stream: one group is one character (00_scope.md R11). -/
abbrev Group := BitVec 5

end Sys2Proof
end

