-- ==== Sys2Proof/Config.lean ====
section
/-! DEFINITION. What is fixed for the machine: the parameters of 00_scope.md R6 and R7, and the one
source of free values. `BASE` is an OPEN parameter and stands here as no constant: every function
that needs it takes it as an argument (20_memory.md R60; log entry 9). -/

namespace Sys2Proof

/-- The constant the `ID` register reads, ASCII "B3T1" (10_state.md R24). -/
abbrev Config.idValue : Word := 0x42335431#32

/-- The size of the register window in bytes (00_scope.md R7; 20_memory.md R60). -/
abbrev Config.windowBytes : Nat := 0x100

/-- The one legal access width, in bytes (00_scope.md R7; 20_memory.md R61). -/
abbrev Config.accessBytes : Nat := 4

/-- The modulus of the code (00_scope.md R6; 42_truncation.md R140). -/
abbrev Config.modulus : Nat := 1000000

/-- The largest value of a counter, at which it saturates (00_scope.md R7; 10_state.md R33). -/
abbrev Config.counterMax : Nat := 0xFFFFFFFF

/-- FREE VALUE number `i` of width `w`: nothing in Lean can evaluate it or prove a value of it.
It stands for the "any value" of 93_implementation_defined.md section 2 (60_exceptions.md R187) and
for the one shift amount the rules give no value (log entries 6 and 7). -/
opaque Config.freeValue (w i : Nat) : BitVec w

end Sys2Proof
end

