-- ==== Sys2Proof/Syntax.lean ====
section
/-! DEFINITION. The commands (30_encoding.md R83), the assembler's lines (R88) and the host's register
accesses (00_scope.md R10; 20_memory.md R61). No meaning stands here. -/

namespace Sys2Proof

/-- The command set: one constructor per row of spec/opcode_table.json (30_encoding.md R83). Every
operand has its width in its type, so every term is a command some word encodes. -/
inductive Instr where
  /-- `NOP` (43_control.md R160). -/
  | nop
  /-- `ENC_START` (40_encoder.md R102). -/
  | encStart
  /-- `ENC_BYTE b` (40_encoder.md R103). -/
  | encByte (b : Byte)
  /-- `ENC_FLUSH` (40_encoder.md R104). -/
  | encFlush
  /-- `DEC_START` (41_decoder.md R122). -/
  | decStart
  /-- `DEC_CHAR c` (41_decoder.md R123). -/
  | decChar (c : Byte)
  /-- `DEC_END` (41_decoder.md R124). -/
  | decEnd
  /-- `TRUNC` (42_truncation.md R141). -/
  | trunc
  /-- `SRESET` (43_control.md R161). -/
  | sreset
deriving DecidableEq, Repr

/-- A line of command assembly (30_encoding.md R88). `IMM8` is written as a number, which may be out
of range: such a line is an assembly error and no command. -/
inductive AsmLine where
  | nop
  | encStart
  | encByte (imm : Nat)
  | encFlush
  | decStart
  | decChar (imm : Nat)
  | decEnd
  | trunc
  | sreset
deriving DecidableEq, Repr

/-- The direction of a host access, with the value a write carries (00_scope.md R10). -/
inductive AccessKind where
  | read
  | write (v : Word)
deriving DecidableEq, Repr

/-- A host access to the register window: `MemRead(off, width)` or `MemWrite(off, width, v)`
(00_scope.md R10). `off` is the byte offset in the window and `width` is in bytes. An access of a
width other than 4 has no effect, so the value it carries is never used (20_memory.md R61; log
entry 10). -/
structure Access where
  kind : AccessKind
  off : Nat
  width : Nat
deriving DecidableEq, Repr

/-- An access on the host's bus, by physical address, before it is known whether it falls into the
block's window (20_memory.md R60, R72). -/
structure BusAccess where
  kind : AccessKind
  addr : Nat
  width : Nat
deriving DecidableEq, Repr

/-- The registers of the window (10_state.md R41); `reserved` is any legal offset from 0x4C on. -/
inductive Reg where
  | id | ctrl | status | cmd | out | acc
  | inCount | skipCount | outCount
  | digest0 | digest1 | digest2 | digest3 | digest4
  | trOffset | trP | trCode | trAscii0 | trAscii1
  | reserved
deriving DecidableEq, Repr

end Sys2Proof
end

