-- ==== Sys2Proof/WellFormed.lean ====
section
/-! DEFINITION. The checks on form: which words are legal commands (30_encoding.md R84), which
accesses are legal (20_memory.md R61) and which assembly lines name a command (30_encoding.md R88).
A term of `Instr` needs no check: its operands are typed at the width the format gives them. -/

namespace Sys2Proof

/-- `OPC`, bits 31:28 (30_encoding.md R80). -/
abbrev opcField (w : Word) : BitVec 4 := w.extractLsb' 28 4

/-- `RSV`, bits 27:8 (30_encoding.md R80). -/
abbrev rsvField (w : Word) : BitVec 20 := w.extractLsb' 8 20

/-- `DATA`, bits 7:0, never sign-extended (30_encoding.md R80, R82). -/
abbrev dataField (w : Word) : Byte := w.extractLsb' 0 8

/-- The opcodes that name a command: 0x0 to 0x7 and 0xF (30_encoding.md R83, R84). -/
def opcAssigned (opc : BitVec 4) : Bool := opc.toNat ≤ 7 || opc.toNat == 15

/-- The opcodes whose `DATA` is an operand: `ENC_BYTE` and `DEC_CHAR` (30_encoding.md R84). -/
def opcTakesData (opc : BitVec 4) : Bool := opc.toNat == 2 || opc.toNat == 5

/-- A legal command word (30_encoding.md R84). -/
def legalWord (w : Word) : Bool :=
  opcAssigned (opcField w) && rsvField w == 0#20 &&
    (opcTakesData (opcField w) || dataField w == 0#8)

/-- A legal host access: 32 bits, 4-byte aligned, inside the window (20_memory.md R61). -/
def Access.legal (a : Access) : Bool :=
  a.width == Config.accessBytes && a.off % 4 == 0 && decide (a.off < Config.windowBytes)

/-- An assembly line names a command when its operand is 0 to 255 (30_encoding.md R88). -/
def AsmLine.wellFormed : AsmLine → Bool
  | .encByte imm => imm ≤ 255
  | .decChar imm => imm ≤ 255
  | .nop | .encStart | .encFlush | .decStart | .decEnd | .trunc | .sreset => true

end Sys2Proof
end

