-- ==== Sys2Proof/Decode.lean ====
section
/-! DEFINITION. Decoding a command word, total on all 2^32 words, every other word refused by name
(30_encoding.md R83, R84, R87), and the encoder written from the same map (R83, R88). -/

namespace Sys2Proof

/-- Why a word is illegal: the three bullets of 60_exceptions.md R174. The block records the same
cause for all three, so which name is given to a word with several is the model's (log entry 13). -/
inductive Illegal where
  /-- `OPC` is 0x8 .. 0xE. -/
  | reservedOpc
  /-- `RSV` (bits 27:8) is not zero. -/
  | nonzeroRsv
  /-- `DATA` is not zero and the opcode takes no operand. -/
  | strayData
deriving DecidableEq, Repr

/-- A row of the opcode map without an operand: `RSV` and `DATA` must be 0 (30_encoding.md R84). -/
def decodePlain (w : Word) (i : Instr) : Except Illegal Instr :=
  if rsvField w ≠ 0#20 then .error .nonzeroRsv
  else if dataField w ≠ 0#8 then .error .strayData
  else .ok i

/-- A row of the opcode map with `DATA` as its operand: `RSV` must be 0 (30_encoding.md R84). -/
def decodeData (w : Word) (i : Byte → Instr) : Except Illegal Instr :=
  if rsvField w ≠ 0#20 then .error .nonzeroRsv
  else .ok (i (dataField w))

/-- The command a word encodes, or the name of what makes it illegal (30_encoding.md R83, R87). -/
def decode (w : Word) : Except Illegal Instr :=
  match (opcField w).toNat with
  | 0x0 => decodePlain w .nop
  | 0x1 => decodePlain w .encStart
  | 0x2 => decodeData w .encByte
  | 0x3 => decodePlain w .encFlush
  | 0x4 => decodePlain w .decStart
  | 0x5 => decodeData w .decChar
  | 0x6 => decodePlain w .decEnd
  | 0x7 => decodePlain w .trunc
  | 0xF => decodePlain w .sreset
  | _ => .error .reservedOpc

/-- The F1 word of an opcode and its `DATA`, with `RSV` = 0 (30_encoding.md R80). -/
def encodeFields (opc : BitVec 4) (data : Byte) : Word := opc ++ 0#20 ++ data

/-- The word of a command (30_encoding.md R83, R88). -/
def encode : Instr → Word
  | .nop => encodeFields 0x0#4 0#8
  | .encStart => encodeFields 0x1#4 0#8
  | .encByte b => encodeFields 0x2#4 b
  | .encFlush => encodeFields 0x3#4 0#8
  | .decStart => encodeFields 0x4#4 0#8
  | .decChar c => encodeFields 0x5#4 c
  | .decEnd => encodeFields 0x6#4 0#8
  | .trunc => encodeFields 0x7#4 0#8
  | .sreset => encodeFields 0xF#4 0#8

/-- The command an assembly line names; a line whose operand is out of range is an assembly error
(30_encoding.md R88). -/
def assemble (l : AsmLine) : Option Instr :=
  if l.wellFormed then
    match l with
    | .nop => some .nop
    | .encStart => some .encStart
    | .encByte imm => some (.encByte (BitVec.ofNat 8 imm))
    | .encFlush => some .encFlush
    | .decStart => some .decStart
    | .decChar imm => some (.decChar (BitVec.ofNat 8 imm))
    | .decEnd => some .decEnd
    | .trunc => some .trunc
    | .sreset => some .sreset
  else none

/-- The mnemonic an assembly line is written with (30_encoding.md R88). -/
def mnemonicText : Instr → String
  | .nop => "nop"
  | .encStart => "enc.start"
  | .encByte _ => "enc.byte"
  | .encFlush => "enc.flush"
  | .decStart => "dec.start"
  | .decChar _ => "dec.char"
  | .decEnd => "dec.end"
  | .trunc => "trunc"
  | .sreset => "sreset"

/-- The low `nbits` bits of a table word as one command word; a number that does not fit one word
is none, since every command is exactly one word (30_encoding.md R81). -/
def tableWord (nbits w : Nat) : Option Word :=
  if w % 2 ^ nbits < 2 ^ 32 then some (BitVec.ofNat 32 (w % 2 ^ nbits)) else none

/-- The command the decoder reads from a word numbered as spec/opcode_table.json numbers it: bit 0
is the least significant bit of the one command word. -/
def decodeTableWord (nbits w : Nat) : Option Instr :=
  (tableWord nbits w).bind fun v => (decode v).toOption

end Sys2Proof
end

