-- ==== Sys2Proof/Machine/State.lean ====
section
/-! DEFINITION. The state of B32T as plain data (10_state.md R20, which says the list is complete),
the environment's side of a run (70_reset_and_hazards.md R200, R212; log entry 1), the reasons a step
can stop, and the state right after reset (R201). -/

namespace Sys2Proof.Machine

/-- `MODE`, two bits (10_state.md R22). -/
abbrev Mode := BitVec 2

/-- No codec operation in progress (10_state.md R22). -/
abbrev Mode.idle : Mode := 0b00#2

/-- An encode operation is in progress (10_state.md R22). -/
abbrev Mode.enc : Mode := 0b01#2

/-- A decode operation is in progress (10_state.md R22). -/
abbrev Mode.dec : Mode := 0b10#2

/-- The error causes (60_exceptions.md R171). -/
inductive Cause where
  | illegal | seq | ovr | badchar | empty
deriving DecidableEq, Repr

/-- The five sticky error bits `ERR_*` and `LAST_ERR` (10_state.md R25). -/
structure Errors where
  illegal : Bool
  seq : Bool
  ovr : Bool
  badchar : Bool
  empty : Bool
  last : BitVec 4
deriving DecidableEq, Repr

/-- `OUT`: the number of valid bytes and the two bytes (10_state.md R27). -/
structure Out where
  n : BitVec 2
  b0 : Byte
  b1 : Byte
deriving DecidableEq, Repr

/-- `ACC`: the pending bits, earliest at `buf[cnt-1]`, and how many there are (10_state.md R30). -/
structure Acc where
  buf : BitVec 12
  cnt : BitVec 4
deriving DecidableEq, Repr

/-- `IN_COUNT`, `SKIP_COUNT` and `OUT_COUNT` (10_state.md R31, R32, R33). -/
structure Counters where
  input : Word
  skip : Word
  output : Word
deriving DecidableEq, Repr

/-- `DIGEST0` to `DIGEST4`, the one home of `D[0..19]` (10_state.md R34). -/
structure Digest where
  w0 : Word
  w1 : Word
  w2 : Word
  w3 : Word
  w4 : Word
deriving DecidableEq, Repr

/-- The truncation results: `TR_OFFSET`, `TR_P`, `TR_CODE` and `TR_DIGITS[0..5]`
(10_state.md R36 to R39). -/
structure TruncResult where
  offset : BitVec 4
  p : BitVec 31
  code : BitVec 20
  d0 : Byte
  d1 : Byte
  d2 : Byte
  d3 : Byte
  d4 : Byte
  d5 : Byte
deriving DecidableEq, Repr

/-- The block's complete architectural state (10_state.md R20). -/
structure Block where
  /-- `CTRL.STRICT` (R23). -/
  strict : Bool
  /-- `STATUS.MODE` (R22). -/
  mode : Mode
  /-- `STATUS.OUT_UNREAD` (R25). -/
  outUnread : Bool
  /-- `STATUS.TR_VALID` (R25). -/
  trValid : Bool
  /-- `STATUS.ERR_*` and `STATUS.LAST_ERR` (R25). -/
  err : Errors
  out : Out
  acc : Acc
  counters : Counters
  digest : Digest
  tr : TruncResult
deriving DecidableEq, Repr

/-- What the environment does to the block, one at a time and in order (20_memory.md R67;
70_reset_and_hazards.md R200, R213). -/
inductive Event where
  /-- The host's access (20_memory.md R61). -/
  | access (a : Access)
  /-- The platform asserts hardware reset (70_reset_and_hazards.md R200). -/
  | assertReset
  /-- The platform releases hardware reset. -/
  | releaseReset
  /-- A second bus master uses the block during an operation of the first (60_exceptions.md R187):
  every register may hold any value after it (93_implementation_defined.md section 2; log entry 6). -/
  | interleaved
deriving DecidableEq, Repr

/-- The block and the environment's side of the run. -/
structure State where
  block : Block
  /-- The model's own: the events still to come, oldest first (log entry 1). -/
  pending : List Event
  /-- The model's own: the values the host's reads returned, in order (70_reset_and_hazards.md R212;
  log entry 1). -/
  reads : List Word
  /-- The model's own: hardware reset is asserted (70_reset_and_hazards.md R200; log entry 4). -/
  inReset : Bool
  /-- The model's own: the index of the next free value (log entry 6). -/
  freeIdx : Nat
deriving DecidableEq, Repr

/-- Why a run ends in a fault. No command raises one: the block never traps or stops
(60_exceptions.md R170). -/
inductive Fault where
  /-- Raised by an access 20_memory.md R61 calls illegal; it changes no block state and ends the host
  program there (60_exceptions.md R179; 70_reset_and_hazards.md R212). Safe: the spec names it. -/
  | busError (a : Access)
  /-- Raised by an access while hardware reset is asserted: stuck, the access is given no step
  (70_reset_and_hazards.md R200; 93_implementation_defined.md section 2). Safe: the run stops. -/
  | accessInReset
deriving DecidableEq, Repr

/-- Why a command has no meaning. -/
inductive Refusal where
  /-- Raised only by an arm of `exec` whose command has no meaning yet; no arm does so now. Safe: the
  run stops. -/
  | notModelled (mnemonic : String)
deriving DecidableEq, Repr

/-- Every register's reset value (10_state.md R41; 70_reset_and_hazards.md R201): all zero, `MODE`
`IDLE`. -/
def Block.reset : Block where
  strict := false
  mode := Mode.idle
  outUnread := false
  trValid := false
  err := ⟨false, false, false, false, false, 0#4⟩
  out := ⟨0#2, 0#8, 0#8⟩
  acc := ⟨0#12, 0#4⟩
  counters := ⟨0#32, 0#32, 0#32⟩
  digest := ⟨0#32, 0#32, 0#32, 0#32, 0#32⟩
  tr := ⟨0#4, 0#31, 0#20, 0#8, 0#8, 0#8, 0#8, 0#8, 0#8⟩

/-- The machine right after reset (70_reset_and_hazards.md R201, R202): the block at its reset
values, nothing pending, nothing read, reset released (log entries 1, 4 and 6). -/
def State.reset : State where
  block := Block.reset
  pending := []
  reads := []
  inReset := false
  freeIdx := 0

end Sys2Proof.Machine
end

