-- ==== Sys2Proof/Machine/Ops.lean ====
section
/-! DEFINITION. The named operations over the block's registers: recording an error (the block's only
"exception", 60_exceptions.md R172) and the host's acknowledgement of one beside it (R182), refusal
(R173), emission (10_state.md R28), the accumulator, the counters, the digest, the free values. -/

namespace Sys2Proof.Machine

/-- The outcome of a step of this machine. -/
abbrev Result := Host.Outcome State Fault Refusal

/-- The cause code `LAST_ERR` reports (60_exceptions.md R171). -/
def causeCode : Cause → BitVec 4
  | .illegal => 1#4
  | .seq => 2#4
  | .ovr => 3#4
  | .badchar => 4#4
  | .empty => 5#4

/-- `raise X(info)`: the cause's bit becomes 1 and `LAST_ERR` its code; nothing else is recorded
(60_exceptions.md R172). A bit that is already 1 stays 1. -/
def recordError (c : Cause) (e : Errors) : Errors :=
  match c with
  | .illegal => { e with illegal := true, last := causeCode .illegal }
  | .seq => { e with seq := true, last := causeCode .seq }
  | .ovr => { e with ovr := true, last := causeCode .ovr }
  | .badchar => { e with badchar := true, last := causeCode .badchar }
  | .empty => { e with empty := true, last := causeCode .empty }

/-- The host's write of `v` to `STATUS`: each `ERR_*` bit written with 1 clears, every other bit of `v`
is ignored and `LAST_ERR` stays (10_state.md R26; 60_exceptions.md R182). -/
def acknowledgeErrors (v : Word) (e : Errors) : Errors :=
  { e with
    illegal := e.illegal && !v.getLsbD 8
    seq := e.seq && !v.getLsbD 9
    ovr := e.ovr && !v.getLsbD 10
    badchar := e.badchar && !v.getLsbD 11
    empty := e.empty && !v.getLsbD 12 }

/-- `sat_inc(c, k)` (00_scope.md R10; 10_state.md R33). -/
def satInc (c : Word) (k : Nat) : Word :=
  BitVec.ofNat 32 (min (c.toNat + k) Config.counterMax)

/-- Record an error of the block (60_exceptions.md R172). -/
def Block.raise (c : Cause) (b : Block) : Block := { b with err := recordError c b.err }

/-- Clear the sticky bits the host writes with 1 (10_state.md R26). -/
def Block.acknowledge (v : Word) (b : Block) : Block :=
  { b with err := acknowledgeErrors v b.err }

/-- Write `ACC` (10_state.md R30). -/
def Block.setAcc (a : Acc) (b : Block) : Block := { b with acc := a }

/-- `emit(b0)` (10_state.md R28). -/
def Block.emitOne (b0 : Byte) (b : Block) : Block :=
  { b with
    out := ⟨1#2, b0, 0#8⟩
    outUnread := true
    counters := { b.counters with output := satInc b.counters.output 1 } }

/-- `emit(b0, b1)` (10_state.md R28). -/
def Block.emitTwo (b0 b1 : Byte) (b : Block) : Block :=
  { b with
    out := ⟨2#2, b0, b1⟩
    outUnread := true
    counters := { b.counters with output := satInc b.counters.output 2 } }

/-- `IN_COUNT <- sat_inc(IN_COUNT, 1)` (10_state.md R31). -/
def Block.countInput (b : Block) : Block :=
  { b with counters := { b.counters with input := satInc b.counters.input 1 } }

/-- `SKIP_COUNT <- sat_inc(SKIP_COUNT, 1)` (10_state.md R32). -/
def Block.countSkip (b : Block) : Block :=
  { b with counters := { b.counters with skip := satInc b.counters.skip 1 } }

/-- What both `START` commands do: enter a mode with an empty accumulator and zero counters
(40_encoder.md R102; 41_decoder.md R122). -/
def Block.startOp (m : Mode) (b : Block) : Block :=
  { b with mode := m, acc := ⟨0#12, 0#4⟩, counters := ⟨0#32, 0#32, 0#32⟩ }

/-- What both end commands do: `ACC` empty and `MODE` `IDLE` (40_encoder.md R104; 41_decoder.md
R124). -/
def Block.endOp (b : Block) : Block := { b with mode := Mode.idle, acc := ⟨0#12, 0#4⟩ }

/-- A host read of `OUT` clears `OUT_UNREAD` and leaves `OUT` (10_state.md R29). -/
def Block.takeOut (b : Block) : Block := { b with outUnread := false }

/-- A host write of `v` to `CTRL` stores `STRICT` only (10_state.md R23; 20_memory.md R63). -/
def Block.setCtrl (v : Word) (b : Block) : Block := { b with strict := v.getLsbD 0 }

/-- A host write to a `DIGESTk` stores the word and clears `TR_VALID`; the results stay
(10_state.md R35). -/
def Block.setDigest (d : Digest) (b : Block) : Block := { b with digest := d, trValid := false }

/-- `TRUNC` writes the results and sets `TR_VALID` (42_truncation.md R141). -/
def Block.setTrunc (r : TruncResult) (b : Block) : Block := { b with tr := r, trValid := true }

/-- Replace the block, leaving the environment's side as it is. -/
def State.setBlock (b : Block) (s : State) : State := { s with block := b }

/-- The event at the head is over. -/
def State.setPending (es : List Event) (s : State) : State := { s with pending := es }

/-- A value is returned to the host (70_reset_and_hazards.md R212). -/
def State.pushRead (v : Word) (s : State) : State := { s with reads := s.reads ++ [v] }

/-- The level of the hardware reset input (70_reset_and_hazards.md R200). -/
def State.setInReset (r : Bool) (s : State) : State := { s with inReset := r }

/-- `k` free values have been used (log entry 6). -/
def State.advanceFree (k : Nat) (s : State) : State := { s with freeIdx := s.freeIdx + k }

/-- Record an error and go on (60_exceptions.md R172). -/
def State.raise (c : Cause) (s : State) : State := s.setBlock (s.block.raise c)

/-- A refused command: the error is recorded and nothing else changes (60_exceptions.md R173). -/
def refuse (c : Cause) (s : State) : Result := .next (s.raise c)

/-- Join an 8-bit input to the pending bits: `(ACC.BUF << 8) | b`, earliest bit highest
(40_encoder.md R103). -/
def Acc.joinByte (a : Acc) (b : Byte) : BitVec 20 := a.buf ++ b

/-- Join a 5-bit value to the pending bits: `(ACC.BUF << 5) | x` (41_decoder.md R123). -/
def Acc.joinGroup (a : Acc) (x : Group) : BitVec 17 := a.buf ++ x

/-- `BUF <- v & (2^n - 1); CNT <- n`, each narrowed to its register (10_state.md R30; log entry 8). -/
def keepBits (v n : Nat) : Acc where
  buf := BitVec.ofNat 12 (v % 2 ^ n)
  cnt := BitVec.ofNat 4 n

/-- The number of free values a whole block takes, one per register field. -/
abbrev freeBlockSize : Nat := 32

/-- A block whose every register holds a free value of its width, numbers `i` to `i + 31`
(93_implementation_defined.md section 2; log entry 6). -/
def freeBlock (i : Nat) : Block where
  strict := (Config.freeValue 1 i).getLsbD 0
  mode := Config.freeValue 2 (i + 1)
  outUnread := (Config.freeValue 1 (i + 2)).getLsbD 0
  trValid := (Config.freeValue 1 (i + 3)).getLsbD 0
  err :=
    { illegal := (Config.freeValue 1 (i + 4)).getLsbD 0
      seq := (Config.freeValue 1 (i + 5)).getLsbD 0
      ovr := (Config.freeValue 1 (i + 6)).getLsbD 0
      badchar := (Config.freeValue 1 (i + 7)).getLsbD 0
      empty := (Config.freeValue 1 (i + 8)).getLsbD 0
      last := Config.freeValue 4 (i + 9) }
  out :=
    { n := Config.freeValue 2 (i + 10)
      b0 := Config.freeValue 8 (i + 11)
      b1 := Config.freeValue 8 (i + 12) }
  acc := { buf := Config.freeValue 12 (i + 13), cnt := Config.freeValue 4 (i + 14) }
  counters :=
    { input := Config.freeValue 32 (i + 15)
      skip := Config.freeValue 32 (i + 16)
      output := Config.freeValue 32 (i + 17) }
  digest :=
    { w0 := Config.freeValue 32 (i + 18)
      w1 := Config.freeValue 32 (i + 19)
      w2 := Config.freeValue 32 (i + 20)
      w3 := Config.freeValue 32 (i + 21)
      w4 := Config.freeValue 32 (i + 22) }
  tr :=
    { offset := Config.freeValue 4 (i + 23)
      p := Config.freeValue 31 (i + 24)
      code := Config.freeValue 20 (i + 25)
      d0 := Config.freeValue 8 (i + 26)
      d1 := Config.freeValue 8 (i + 27)
      d2 := Config.freeValue 8 (i + 28)
      d3 := Config.freeValue 8 (i + 29)
      d4 := Config.freeValue 8 (i + 30)
      d5 := Config.freeValue 8 (i + 31) }

end Sys2Proof.Machine
end

