-- ==== Sys2Proof/Machine/Control.lean ====
section
/-! DEFINITION. The control commands: `NOP` and `SRESET` (43_control.md R160, R161). -/

namespace Sys2Proof.Machine

/-- `NOP`: no state change (43_control.md R160). -/
def execNop (s : State) : Result := .next s

/-- `SRESET`: every piece of the block's state takes its reset value (43_control.md R161). The host's
side of the run is not the block's and stays. -/
def execSreset (s : State) : Result := .next (s.setBlock Block.reset)

end Sys2Proof.Machine
end

