-- ==== Sys2Proof/Machine/Operands.lean ====
section
/-! DEFINITION. The operands of the commands and the maps over them: the encoder's alphabet
(40_encoder.md R100), the decoder's character map (41_decoder.md R120), the groups and bytes taken
from the accumulator, and the digest bytes `TRUNC` reads (10_state.md R34). -/

namespace Sys2Proof.Machine

/-- `ALPHABET[g]`: A to Z for 0 to 25, then 2 to 7 (40_encoder.md R100). -/
def alphabet (g : Group) : Byte :=
  if g.toNat ≤ 25 then BitVec.ofNat 8 (0x41 + g.toNat)
  else BitVec.ofNat 8 (0x32 + (g.toNat - 26))

/-- `LOOKUP(c)`, `none` for an unknown character (41_decoder.md R120). -/
def lookup (c : Byte) : Option Group :=
  if 0x41 ≤ c.toNat ∧ c.toNat ≤ 0x5A then some (BitVec.ofNat 5 (c.toNat - 0x41))
  else if 0x61 ≤ c.toNat ∧ c.toNat ≤ 0x7A then some (BitVec.ofNat 5 (c.toNat - 0x61))
  else if 0x32 ≤ c.toNat ∧ c.toNat ≤ 0x37 then some (BitVec.ofNat 5 (c.toNat - 0x32 + 26))
  else none

/-- `(v >> n) & 0x1F` (40_encoder.md R103). -/
def groupAt (v n : Nat) : Group := BitVec.ofNat 5 (v >>> n)

/-- `(v >> n) & 0xFF` (41_decoder.md R123). -/
def byteAt (v n : Nat) : Byte := BitVec.ofNat 8 (v >>> n)

/-- The final group of an encode: the pending bits padded on the right with zero bits,
`(ACC.BUF << (5 - ACC.CNT)) & 0x1F` (40_encoder.md R104). For `ACC.CNT` above 5 the shift amount has
no value, so the group is the free value given (log entry 7). -/
def flushGroup (a : Acc) (free : Group) : Group :=
  if a.cnt.toNat ≤ 5 then BitVec.ofNat 5 (a.buf.toNat <<< (5 - a.cnt.toNat)) else free

/-- The number of free values `flushGroup` uses. -/
def flushFree (a : Acc) : Nat := if a.cnt.toNat ≤ 5 then 0 else 1

/-- The twenty digest bytes as one number, `D[0]` highest (10_state.md R34). -/
def digestBits (d : Digest) : BitVec 160 := d.w0 ++ d.w1 ++ d.w2 ++ d.w3 ++ d.w4

/-- `D[i]` for `i` in 0 .. 19 (10_state.md R34). -/
def digestByte (d : Digest) (i : Nat) : Byte := (digestBits d).extractLsb' (8 * (19 - i)) 8

end Sys2Proof.Machine
end

