-- ==== Sys2Proof/Machine/Decoder.lean ====
section
/-! DEFINITION. The decoder's commands: `DEC_START`, `DEC_CHAR`, `DEC_END` (41_decoder.md R122, R123,
R124). -/

namespace Sys2Proof.Machine

/-- The block after an unknown character: skipped and counted in both settings, recorded only with
`STRICT` (41_decoder.md R123; 60_exceptions.md R177). -/
def skipChar (blk : Block) : Block :=
  if blk.strict then blk.countSkip.raise .badchar else blk.countSkip

/-- The block after an accepted known character of value `x`: count it, emit the highest 8 bits when
there are 8, keep the rest (41_decoder.md R123). -/
def decodeGroup (x : Group) (blk : Block) : Block :=
  let n := blk.acc.cnt.toNat + 5
  let v := (blk.acc.joinGroup x).toNat
  if 8 ≤ n then
    (blk.countInput.emitOne (byteAt v (n - 8))).setAcc (keepBits v (n - 8))
  else
    blk.countInput.setAcc (keepBits v n)

/-- The block after an accepted `DEC_END`: leftover bits discarded, `EMPTY` recorded when no byte was
emitted (41_decoder.md R124; 60_exceptions.md R178). -/
def endDecode (blk : Block) : Block :=
  if blk.counters.output = 0#32 then blk.endOp.raise .empty else blk.endOp

/-- `DEC_START` (41_decoder.md R122): legal in every mode, abandons an operation in progress. -/
def execDecStart (s : State) : Result := .next (s.setBlock (s.block.startOp Mode.dec))

/-- `DEC_CHAR c` (41_decoder.md R123): `SEQ` outside `DEC`; an unknown character is skipped; a known
one is refused with `OVR` when it would emit while output is unread. -/
def execDecChar (c : Byte) (s : State) : Result :=
  if s.block.mode ≠ Mode.dec then refuse .seq s
  else
    match lookup c with
    | none => .next (s.setBlock (skipChar s.block))
    | some x =>
      if 3 ≤ s.block.acc.cnt.toNat ∧ s.block.outUnread = true then refuse .ovr s
      else .next (s.setBlock (decodeGroup x s.block))

/-- `DEC_END` (41_decoder.md R124): `SEQ` outside `DEC`; never refused with `OVR`. -/
def execDecEnd (s : State) : Result :=
  if s.block.mode ≠ Mode.dec then refuse .seq s
  else .next (s.setBlock (endDecode s.block))

end Sys2Proof.Machine
end

