-- ==== Sys2Proof/Machine/Encoder.lean ====
section
/-! DEFINITION. The encoder's commands: `ENC_START`, `ENC_BYTE`, `ENC_FLUSH` (40_encoder.md R102,
R103, R104). -/

namespace Sys2Proof.Machine

/-- The block after an accepted `ENC_BYTE b`: emit the highest group, a second one if 5 more bits are
there, keep the rest, count the input (40_encoder.md R103). -/
def encodeByte (b : Byte) (blk : Block) : Block :=
  let n := blk.acc.cnt.toNat + 8
  let v := (blk.acc.joinByte b).toNat
  let g0 := groupAt v (n - 5)
  if 5 ≤ n - 5 then
    let g1 := groupAt v (n - 10)
    (((blk.emitTwo (alphabet g0) (alphabet g1)).setAcc (keepBits v (n - 10)))).countInput
  else
    ((blk.emitOne (alphabet g0)).setAcc (keepBits v (n - 5))).countInput

/-- The block after the padded final group is emitted and the operation ended (40_encoder.md R104). -/
def flushPending (free : Group) (blk : Block) : Block :=
  (blk.emitOne (alphabet (flushGroup blk.acc free))).endOp

/-- `ENC_START` (40_encoder.md R102): legal in every mode, abandons an operation in progress. -/
def execEncStart (s : State) : Result := .next (s.setBlock (s.block.startOp Mode.enc))

/-- `ENC_BYTE b` (40_encoder.md R103): `SEQ` outside `ENC`, then `OVR` while output is unread. -/
def execEncByte (b : Byte) (s : State) : Result :=
  if s.block.mode ≠ Mode.enc then refuse .seq s
  else if s.block.outUnread then refuse .ovr s
  else .next (s.setBlock (encodeByte b s.block))

/-- `ENC_FLUSH` (40_encoder.md R104): `SEQ` outside `ENC`; `OVR` only when a final group is pending
and output is unread; with nothing pending nothing is emitted. -/
def execEncFlush (s : State) : Result :=
  if s.block.mode ≠ Mode.enc then refuse .seq s
  else if s.block.acc.cnt = 0#4 then .next (s.setBlock s.block.endOp)
  else if s.block.outUnread then refuse .ovr s
  else .next ((s.setBlock (flushPending (Config.freeValue 5 s.freeIdx) s.block)).advanceFree
    (flushFree s.block.acc))

end Sys2Proof.Machine
end

