-- ==== Sys2Proof/Machine/Truncation.lean ====
section
/-! DEFINITION. Dynamic truncation: the function (42_truncation.md R140) and `TRUNC` (R141). -/

namespace Sys2Proof.Machine

/-- `off = D[19] & 0x0F` (42_truncation.md R140). -/
def truncOffset (d : Digest) : BitVec 4 := (digestByte d 19).setWidth 4

/-- `P`: the low 7 bits of `D[off]`, then `D[off+1]`, `D[off+2]`, `D[off+3]`, big-endian
(42_truncation.md R140). -/
def truncP (d : Digest) : BitVec 31 :=
  let off := (truncOffset d).toNat
  (digestByte d off).setWidth 7 ++ digestByte d (off + 1) ++ digestByte d (off + 2) ++
    digestByte d (off + 3)

/-- `code = P mod 1 000 000` (42_truncation.md R140). -/
def truncCode (p : BitVec 31) : BitVec 20 := BitVec.ofNat 20 (p.toNat % Config.modulus)

/-- `digit[i] = 0x30 + ((code div 10^(5-i)) mod 10)` (42_truncation.md R140). -/
def truncDigit (code : BitVec 20) (i : Nat) : Byte :=
  BitVec.ofNat 8 (0x30 + code.toNat / 10 ^ (5 - i) % 10)

/-- `trunc(D)` (42_truncation.md R140). -/
def truncate (d : Digest) : TruncResult :=
  let p := truncP d
  let code := truncCode p
  { offset := truncOffset d
    p := p
    code := code
    d0 := truncDigit code 0
    d1 := truncDigit code 1
    d2 := truncDigit code 2
    d3 := truncDigit code 3
    d4 := truncDigit code 4
    d5 := truncDigit code 5 }

/-- `TRUNC` (42_truncation.md R141): legal in every mode, raises no error. -/
def execTrunc (s : State) : Result :=
  .next (s.setBlock (s.block.setTrunc (truncate s.block.digest)))

end Sys2Proof.Machine
end

