-- ==== Sys2Proof/Machine/Flags.lean ====
section
/-! DEFINITION. How each register of the window reads (10_state.md R41): `STATUS` put together from
its flags (R25), and every other register from the state it shows. Reserved bits read 0. -/

namespace Sys2Proof.Machine

/-- `STATUS` (10_state.md R25): `LAST_ERR` 19:16, `ERR_*` 12:8, `TR_VALID` 3, `MODE` 2:1,
`OUT_UNREAD` 0. -/
def statusWord (b : Block) : Word :=
  0#12 ++ b.err.last ++ 0#3 ++
    BitVec.ofBool b.err.empty ++ BitVec.ofBool b.err.badchar ++ BitVec.ofBool b.err.ovr ++
    BitVec.ofBool b.err.seq ++ BitVec.ofBool b.err.illegal ++
    0#4 ++ BitVec.ofBool b.trValid ++ b.mode ++ BitVec.ofBool b.outUnread

/-- `CTRL`: `STRICT` in bit 0 (10_state.md R23). -/
def ctrlWord (b : Block) : Word := 0#31 ++ BitVec.ofBool b.strict

/-- `OUT`: `B0` 31:24, `B1` 23:16, `N` 1:0 (10_state.md R27). -/
def outWord (o : Out) : Word := o.b0 ++ o.b1 ++ 0#14 ++ o.n

/-- `ACC`: `CNT` 19:16, `BUF` 11:0 (10_state.md R30). -/
def accWord (a : Acc) : Word := 0#12 ++ a.cnt ++ 0#4 ++ a.buf

/-- `TR_OFFSET` (10_state.md R36). -/
def trOffsetWord (r : TruncResult) : Word := r.offset.setWidth 32

/-- `TR_P` (10_state.md R37). -/
def trPWord (r : TruncResult) : Word := r.p.setWidth 32

/-- `TR_CODE` (10_state.md R38). -/
def trCodeWord (r : TruncResult) : Word := r.code.setWidth 32

/-- `TR_ASCII0` (10_state.md R39). -/
def trAscii0Word (r : TruncResult) : Word := r.d0 ++ r.d1 ++ r.d2 ++ r.d3

/-- `TR_ASCII1` (10_state.md R39). -/
def trAscii1Word (r : TruncResult) : Word := r.d4 ++ r.d5 ++ 0#16

/-- The register at a legal offset (10_state.md R41; 20_memory.md R62). -/
def regAt (off : Nat) : Reg :=
  match off with
  | 0x00 => .id
  | 0x04 => .ctrl
  | 0x08 => .status
  | 0x0C => .cmd
  | 0x10 => .out
  | 0x14 => .acc
  | 0x18 => .inCount
  | 0x1C => .skipCount
  | 0x20 => .outCount
  | 0x24 => .digest0
  | 0x28 => .digest1
  | 0x2C => .digest2
  | 0x30 => .digest3
  | 0x34 => .digest4
  | 0x38 => .trOffset
  | 0x3C => .trP
  | 0x40 => .trCode
  | 0x44 => .trAscii0
  | 0x48 => .trAscii1
  | _ => .reserved

/-- The offset of a named register (30_encoding.md R89, `off(REG)`); `reserved` stands for the first
reserved offset. -/
def regOffset : Reg → Nat
  | .id => 0x00
  | .ctrl => 0x04
  | .status => 0x08
  | .cmd => 0x0C
  | .out => 0x10
  | .acc => 0x14
  | .inCount => 0x18
  | .skipCount => 0x1C
  | .outCount => 0x20
  | .digest0 => 0x24
  | .digest1 => 0x28
  | .digest2 => 0x2C
  | .digest3 => 0x30
  | .digest4 => 0x34
  | .trOffset => 0x38
  | .trP => 0x3C
  | .trCode => 0x40
  | .trAscii0 => 0x44
  | .trAscii1 => 0x48
  | .reserved => 0x4C

/-- The value a host read of a register returns (10_state.md R41): `ID` is the constant (R24), `CMD`
reads 0 (R40), reserved offsets read 0 (20_memory.md R62). -/
def readReg (b : Block) : Reg → Word
  | .id => Config.idValue
  | .ctrl => ctrlWord b
  | .status => statusWord b
  | .cmd => 0#32
  | .out => outWord b.out
  | .acc => accWord b.acc
  | .inCount => b.counters.input
  | .skipCount => b.counters.skip
  | .outCount => b.counters.output
  | .digest0 => b.digest.w0
  | .digest1 => b.digest.w1
  | .digest2 => b.digest.w2
  | .digest3 => b.digest.w3
  | .digest4 => b.digest.w4
  | .trOffset => trOffsetWord b.tr
  | .trP => trPWord b.tr
  | .trCode => trCodeWord b.tr
  | .trAscii0 => trAscii0Word b.tr
  | .trAscii1 => trAscii1Word b.tr
  | .reserved => 0#32

/-- What a host read of a register does to the block: only a read of `OUT` does anything
(10_state.md R29; 20_memory.md R65). -/
def afterRead (r : Reg) (b : Block) : Block :=
  match r with
  | .out => b.takeOut
  | .id | .ctrl | .status | .cmd | .acc | .inCount | .skipCount | .outCount
  | .digest0 | .digest1 | .digest2 | .digest3 | .digest4
  | .trOffset | .trP | .trCode | .trAscii0 | .trAscii1 | .reserved => b

/-- What a host write of `v` to a register other than `CMD` does to the block: `CTRL`, the W1C bits of
`STATUS` and the digest words act; read-only registers and reserved offsets ignore it (10_state.md R23,
R26, R35; 20_memory.md R62, R63, R65). A `CMD` write acts by the command it executes, not here. -/
def afterWrite (r : Reg) (v : Word) (b : Block) : Block :=
  match r with
  | .ctrl => b.setCtrl v
  | .status => b.acknowledge v
  | .digest0 => b.setDigest { b.digest with w0 := v }
  | .digest1 => b.setDigest { b.digest with w1 := v }
  | .digest2 => b.setDigest { b.digest with w2 := v }
  | .digest3 => b.setDigest { b.digest with w3 := v }
  | .digest4 => b.setDigest { b.digest with w4 := v }
  | .id | .cmd | .out | .acc | .inCount | .skipCount | .outCount
  | .trOffset | .trP | .trCode | .trAscii0 | .trAscii1 | .reserved => b

end Sys2Proof.Machine
end

