-- ==== Sys2Proof/Machine/Access.lean ====
section
/-! DEFINITION. What one event does: the host's reads and writes of the window (10_state.md R41;
20_memory.md R61 to R66), a `CMD` write that executes a command or records `ILLEGAL`
(30_encoding.md R87), hardware reset (70_reset_and_hazards.md R200), interleaved use
(60_exceptions.md R187); and which bus accesses reach the window (20_memory.md R60, R72). -/

namespace Sys2Proof.Machine

/-- A `CMD` write of `w`: an illegal word is refused with `ILLEGAL`, any other executes its command
(30_encoding.md R87; 60_exceptions.md R174). -/
def execCommandWord (w : Word) (s : State) : Result :=
  match decode w with
  | .error _ => refuse .illegal s
  | .ok i => exec i s

/-- A legal host read: the register's value goes to the host, then the read's side effect
(10_state.md R29; 20_memory.md R65). -/
def performRead (r : Reg) (s : State) : Result :=
  .next ((s.pushRead (readReg s.block r)).setBlock (afterRead r s.block))

/-- A legal host write: a `CMD` write executes its word, any other acts on its register alone
(10_state.md R40; 20_memory.md R65). -/
def performWrite (r : Reg) (v : Word) (s : State) : Result :=
  match r with
  | .cmd => execCommandWord v s
  | .id | .ctrl | .status | .out | .acc | .inCount | .skipCount | .outCount
  | .digest0 | .digest1 | .digest2 | .digest3 | .digest4
  | .trOffset | .trP | .trCode | .trAscii0 | .trAscii1 | .reserved =>
    .next (s.setBlock (afterWrite r v s.block))

/-- One host access: an illegal one is answered with a bus error and has no effect
(20_memory.md R61; 60_exceptions.md R179; log entries 11 and 12). -/
def performAccess (a : Access) (s : State) : Result :=
  if a.legal then
    match a.kind with
    | .read => performRead (regAt a.off) s
    | .write v => performWrite (regAt a.off) v s
  else .fault (.busError a)

/-- One event. While hardware reset is asserted no access is performed, so it is given no step
(70_reset_and_hazards.md R200; 93_implementation_defined.md section 2; log entry 4). After interleaved
use every register holds a free value (60_exceptions.md R187; log entry 6). -/
def performEvent (e : Event) (s : State) : Result :=
  match e with
  | .access a => if s.inReset then .fault .accessInReset else performAccess a s
  | .assertReset => .next ((s.setBlock Block.reset).setInReset true)
  | .releaseReset => .next (s.setInReset false)
  | .interleaved =>
    if s.inReset then .fault .accessInReset
    else .next ((s.setBlock (freeBlock s.freeIdx)).advanceFree freeBlockSize)

/-- The offset in the window a physical address falls on, if it belongs to the block
(20_memory.md R60, R72; log entry 9). -/
def windowOffset (base addr : Nat) : Option Nat :=
  if base ≤ addr ∧ addr < base + Config.windowBytes then some (addr - base) else none

/-- The event a bus access is for the block; an access outside the window reaches it not at all
(20_memory.md R72). -/
def busEvent (base : Nat) (a : BusAccess) : Option Event :=
  (windowOffset base a.addr).map fun off => .access ⟨a.kind, off, a.width⟩

end Sys2Proof.Machine
end

