-- ==== Sys2Proof/Machine/Step.lean ====
section
/-! DEFINITION. One step: the oldest pending event is performed to completion before the next
(20_memory.md R66, R67). The block fetches nothing (R70): what runs next is what the host does next. -/

namespace Sys2Proof.Machine

/-- Perform the oldest pending event. With none pending the host program has ended and the block,
which takes no step of its own, stays as it is (20_memory.md R67; log entry 2). -/
def step (s : State) : Host.Outcome State Fault Refusal :=
  match s.pending with
  | [] => .next s
  | e :: es => performEvent e (s.setPending es)

/-- The host's very next access is the `CMD` write of a table word, with reset released, so that the
very next step runs that command (10_state.md R40; log entry 3). A number that does not fit one word
changes nothing. -/
def State.withFetchWord (s : State) (nbits w : Nat) : State :=
  match tableWord nbits w with
  | none => s
  | some v =>
    { s with
      pending := .access ⟨.write v, regOffset .cmd, Config.accessBytes⟩ :: s.pending
      inReset := false }

end Sys2Proof.Machine
end

