-- ==== Sys2Proof/Machine/Base32.lean ====
section
/-! DEFINITION. The whole-input functions the commands compute: `encode(b)` (40_encoder.md R101) and
`decode(s)` (41_decoder.md R121), over bit streams as 00_scope.md R9 defines them. The machine does
not use them; its laws are stated against them. -/

namespace Sys2Proof.Machine

/-- The bits of a value, most significant first (00_scope.md R9; 20_memory.md R64). -/
def bitsMsb {w : Nat} (v : BitVec w) : List Bool :=
  (List.range w).map fun i => v.getLsbD (w - 1 - i)

/-- The bit stream of a byte string (00_scope.md R9). -/
def byteStream (b : List Byte) : List Bool := b.flatMap bitsMsb

/-- The bit stream of a sequence of 5-bit values (41_decoder.md R121). -/
def groupStream (t : List Group) : List Bool := t.flatMap bitsMsb

/-- `w` stream bits from position `p` on, first bit most significant; a position past the end is a 0
bit (40_encoder.md R101). -/
def bitsAt (w : Nat) (s : List Bool) (p : Nat) : BitVec w :=
  BitVec.ofNat w ((List.range w).foldl (fun acc i => 2 * acc + (s.getD (p + i) false).toNat) 0)

/-- `encode(b)` (40_encoder.md R101): one character for each of the `ceil(8·len(b)/5)` groups. -/
def encodeString (b : List Byte) : List Byte :=
  (List.range ((8 * b.length + 4) / 5)).map fun j => alphabet (bitsAt 5 (byteStream b) (5 * j))

/-- `decode(s)` (41_decoder.md R121): the values of the known characters, taken 8 bits at a time; the
last fewer than 8 bits are discarded. -/
def decodeString (s : List Byte) : List Byte :=
  let u := groupStream (s.filterMap lookup)
  (List.range (u.length / 8)).map fun j => bitsAt 8 u (8 * j)

end Sys2Proof.Machine
end

