-- ==== Sys2Proof/Machine/HostProgram.lean ====
section
/-! DEFINITION. Host programs (30_encoding.md R89; 70_reset_and_hazards.md R212): the access forms, the
pseudo-instructions' exact expansions, running a program and its observation. -/

namespace Sys2Proof.Machine

/-- `R REG` (30_encoding.md R89). -/
def hostRead (r : Reg) : Access := ⟨.read, regOffset r, Config.accessBytes⟩

/-- `W REG, v` (30_encoding.md R89). -/
def hostWrite (r : Reg) (v : Word) : Access := ⟨.write v, regOffset r, Config.accessBytes⟩

/-- `C <mnemonic>`: the `CMD` write of the command's word (30_encoding.md R89). -/
def hostCommand (i : Instr) : Access := hostWrite .cmd (encode i)

/-- `C enc.byte.rd b` (30_encoding.md R89). -/
def encByteRd (b : Byte) : List Access := [hostCommand (.encByte b), hostRead .out]

/-- `C enc.flush.rd` after `k` bytes: the read follows when bits are pending, which the host knows
from its own count, `ACC.CNT = 8k mod 5` (30_encoding.md R89; 40_encoder.md R106). -/
def encFlushRd (k : Nat) : List Access :=
  if 8 * k % 5 = 0 then [hostCommand .encFlush] else [hostCommand .encFlush, hostRead .out]

/-- `ENCODE s` (30_encoding.md R89). -/
def encodeProgram (b : List Byte) : List Access :=
  hostCommand .encStart :: (b.flatMap encByteRd ++ encFlushRd b.length)

/-- `C dec.char.rd c` after `m` known characters: the read follows when the command emits, which the
host knows from its own count, `ACC.CNT = 5m mod 8` (30_encoding.md R89; 41_decoder.md R126). -/
def decCharRd (m : Nat) (c : Byte) : List Access :=
  if (lookup c).isSome ∧ 3 ≤ 5 * m % 8 then [hostCommand (.decChar c), hostRead .out]
  else [hostCommand (.decChar c)]

/-- The known characters among those fed so far, after `c`. -/
def knownAfter (m : Nat) (c : Byte) : Nat := if (lookup c).isSome then m + 1 else m

/-- `C dec.char.rd` for each character of `s`, after `m` known ones. -/
def decCharsRd : Nat → List Byte → List Access
  | _, [] => []
  | m, c :: cs => decCharRd m c ++ decCharsRd (knownAfter m c) cs

/-- `DECODE s` (30_encoding.md R89). -/
def decodeProgram (s : List Byte) : List Access :=
  hostCommand .decStart :: (decCharsRd 0 s ++ [hostCommand .decEnd])

/-- `LOADDIGEST d`, with the digest as its five words (30_encoding.md R89; 10_state.md R34). -/
def loadDigest (d : Digest) : List Access :=
  [hostWrite .digest0 d.w0, hostWrite .digest1 d.w1, hostWrite .digest2 d.w2,
    hostWrite .digest3 d.w3, hostWrite .digest4 d.w4]

/-- `TOTP.CODE d` (30_encoding.md R89). -/
def totpCode (d : Digest) : List Access :=
  loadDigest d ++
    [hostCommand .trunc, hostRead .trCode, hostRead .trAscii0, hostRead .trAscii1]

/-- `n` steps of the machine, stopping at the first fault or refusal. -/
def runSteps : Nat → State → Result
  | 0, s => .next s
  | n + 1, s =>
    match step s with
    | .next t => runSteps n t
    | .fault f => .fault f
    | .refused r => .refused r

/-- The accesses of a program are the host's next ones. -/
def State.withProgram (p : List Access) (s : State) : State :=
  { s with pending := p.map Event.access ++ s.pending }

/-- A program run on a state to its last access (70_reset_and_hazards.md R212). -/
def runProgram (p : List Access) (s : State) : Result := runSteps p.length (s.withProgram p)

/-- How a program ends: after its last access, or as a fault at the access that raised it
(70_reset_and_hazards.md R212). No access of this machine is refused; the name completes the outcomes of
a step. -/
inductive Ending where
  | completed
  | fault (f : Fault)
  | refused (r : Refusal)
deriving DecidableEq, Repr

/-- At most `n` steps: the state the last performed event left, and how the run ended. An access that
faults is not performed and has no effect (20_memory.md R61; 60_exceptions.md R179; log entry 11). -/
def runToEnd : Nat → State → State × Ending
  | 0, s => (s, .completed)
  | n + 1, s =>
    match step s with
    | .next t => runToEnd n t
    | .fault f => (s, .fault f)
    | .refused r => (s, .refused r)

/-- A program run on a block by a host with exclusive use, to its end
(70_reset_and_hazards.md R212). -/
def runFrom (p : List Access) (b : Block) : State × Ending :=
  runToEnd p.length ((State.reset.setBlock b).withProgram p)

/-- The observation of a program of legal or illegal accesses: the values its reads returned, in order,
and the block's state after its last access, also where a bus error ended it
(70_reset_and_hazards.md R212). -/
def observe (p : List Access) (b : Block) : List Word × Block :=
  ((runFrom p b).1.reads, (runFrom p b).1.block)

/-- How a program ends (70_reset_and_hazards.md R212). -/
def programEnd (p : List Access) (b : Block) : Ending := (runFrom p b).2

/-- The output bytes of one value read from `OUT`: `N` bytes, `B0` first (10_state.md R27;
40_encoder.md R105). -/
def outBytes (w : Word) : List Byte :=
  match (w.extractLsb' 0 2).toNat with
  | 1 => [w.extractLsb' 24 8]
  | 2 => [w.extractLsb' 24 8, w.extractLsb' 16 8]
  | _ => []

end Sys2Proof.Machine
end

