-- ==== Sys2Proof/Safety.lean ====
section
/-! DEFINITION. The terms the claims use: the error a command records and in which order it is looked
for (60_exceptions.md R175 to R180), which commands would emit (R176), what holds of the block between
commands (10_state.md R30, R27, R35; 40_encoder.md R106; 41_decoder.md R126), and exclusive use
(60_exceptions.md R187; 70_reset_and_hazards.md R212). -/

namespace Sys2Proof.Machine

/-- The environment's side of two states is the same: nothing but the block differs. -/
def sameEnvironment (s t : State) : Prop :=
  t.pending = s.pending ∧ t.reads = s.reads ∧ t.inReset = s.inReset ∧ t.freeIdx = s.freeIdx

/-- The mode a command needs; `none` for a command that never raises `SEQ` (60_exceptions.md R175). -/
def neededMode : Instr → Option Mode
  | .encByte _ | .encFlush => some Mode.enc
  | .decChar _ | .decEnd => some Mode.dec
  | .nop | .encStart | .decStart | .trunc | .sreset => none

/-- A command that would call `emit` on this block (60_exceptions.md R176). -/
def wouldEmit (i : Instr) (b : Block) : Bool :=
  match i with
  | .encByte _ => true
  | .encFlush => decide (0 < b.acc.cnt.toNat)
  | .decChar c => (lookup c).isSome && decide (3 ≤ b.acc.cnt.toNat)
  | .nop | .encStart | .decStart | .decEnd | .trunc | .sreset => false

/-- Why a command is refused, `SEQ` before `OVR` (60_exceptions.md R175, R176, R180). -/
def refusalCause (i : Instr) (b : Block) : Option Cause :=
  match neededMode i with
  | none => none
  | some m =>
    if b.mode ≠ m then some .seq
    else if wouldEmit i b && b.outUnread then some .ovr
    else none

/-- The error a command that was not refused records while completing (60_exceptions.md R177, R178). -/
def completionCause (i : Instr) (b : Block) : Option Cause :=
  match i with
  | .decChar c => if (lookup c).isNone && b.strict then some .badchar else none
  | .decEnd => if b.counters.output = 0#32 then some .empty else none
  | .nop | .encStart | .encByte _ | .encFlush | .decStart | .trunc | .sreset => none

/-- The one error a command records, if any (60_exceptions.md R180). -/
def commandError (i : Instr) (b : Block) : Option Cause :=
  match refusalCause i b with
  | some c => some c
  | none => completionCause i b

/-- The commands of the Base32 codec unit (00_scope.md R1). -/
def isCodecCommand : Instr → Bool
  | .encStart | .encByte _ | .encFlush | .decStart | .decChar _ | .decEnd => true
  | .nop | .trunc | .sreset => false

/-- The accumulator between commands, and `MODE` is a mode (10_state.md R22, R30). -/
def Block.codecOk (b : Block) : Prop :=
  b.mode ≠ 0b11#2 ∧
  (b.mode = Mode.idle → b.acc.cnt = 0#4 ∧ b.acc.buf = 0#12) ∧
  (b.mode = Mode.enc → b.acc.cnt.toNat ≤ 4 ∧ b.acc.buf.toNat < 2 ^ b.acc.cnt.toNat) ∧
  (b.mode = Mode.dec → b.acc.cnt.toNat ≤ 7 ∧ b.acc.buf.toNat < 2 ^ b.acc.cnt.toNat)

/-- The output register: `N` is never 3, a byte beyond `N` is 0, and unread output is there
(10_state.md R27, R28). -/
def Block.outOk (b : Block) : Prop :=
  b.out.n ≠ 3#2 ∧ (b.out.n = 0#2 → b.out.b0 = 0#8) ∧ (b.out.n.toNat ≤ 1 → b.out.b1 = 0#8) ∧
    (b.outUnread = true → b.out.n ≠ 0#2)

/-- `LAST_ERR` is a cause code, and not 0 while an error bit is set (60_exceptions.md R171, R172). -/
def Block.errOk (b : Block) : Prop :=
  b.err.last.toNat ≤ 5 ∧
    ((b.err.illegal || b.err.seq || b.err.ovr || b.err.badchar || b.err.empty) = true →
      b.err.last ≠ 0#4)

/-- The truncation results: those of some digest, or the reset values; and with `TR_VALID` those of the
digest the registers hold now (10_state.md R25, R35; 42_truncation.md R141). -/
def Block.truncOk (b : Block) : Prop :=
  (b.tr = Block.reset.tr ∨ ∃ d : Digest, b.tr = truncate d) ∧
    (b.trValid = true → b.tr = truncate b.digest)

/-- The counting laws of an operation in progress, before `IN_COUNT` saturates (40_encoder.md R106;
41_decoder.md R126), with `OUT_COUNT` saturating as 10_state.md R33 says (log entry 15), and no skip
counted while encoding (R32). -/
def Block.countsOk (b : Block) : Prop :=
  (b.mode = Mode.enc →
    b.counters.skip = 0#32 ∧
    (b.counters.input.toNat < Config.counterMax →
      b.counters.output.toNat = min (8 * b.counters.input.toNat / 5) Config.counterMax ∧
      b.acc.cnt.toNat = 8 * b.counters.input.toNat % 5)) ∧
  (b.mode = Mode.dec →
    b.counters.input.toNat < Config.counterMax →
      b.counters.output.toNat = 5 * b.counters.input.toNat / 8 ∧
      b.acc.cnt.toNat = 5 * b.counters.input.toNat % 8)

/-- The host has the block to itself in what is still to come (60_exceptions.md R187;
70_reset_and_hazards.md R212). -/
def State.exclusive (s : State) : Prop := Event.interleaved ∉ s.pending

/-- While hardware reset is asserted the block holds its reset values
(70_reset_and_hazards.md R200, R201). -/
def State.heldInReset (s : State) : Prop := s.inReset = true → s.block = Block.reset

/-- The next event is the host's access `a`, and it is performed (not held off by reset). -/
def State.nextAccess (s : State) (a : Access) : Prop :=
  s.inReset = false ∧ s.pending.head? = some (.access a)

/-- The next event puts the block into its reset state: `SRESET`, or hardware reset
(70_reset_and_hazards.md R200). -/
def State.nextResets (s : State) : Prop :=
  s.nextAccess (hostCommand .sreset) ∨ s.pending.head? = some .assertReset

/-- The next event is a second master's interleaved use (60_exceptions.md R187). -/
def State.nextInterleaved (s : State) : Prop := s.pending.head? = some .interleaved

end Sys2Proof.Machine
end

