-- ==== Sys2Proof/Certificates/Slice0/Obligations.lean ====
section
/-! DEFINITION. The statements for the provers, from the numbered rules of spec/. Each docstring names
the rule a statement formalises, or the model's choice it rests on. -/

open Sys2Proof Sys2Proof.Machine

/-! ### Reset -/

/-- 70_reset_and_hazards.md R201: what every register reads after reset, every field's value, and that
both resets, `SRESET` and hardware reset asserted and released, leave the block so from every state. -/
def Obligations.BothResetsLeaveTheStatedValues : Prop :=
  (∀ r : Reg, readReg State.reset.block r = if r = .id then 0x42335431#32 else 0#32) ∧
  State.reset.block.mode = Mode.idle ∧ State.reset.block.outUnread = false ∧
  State.reset.block.trValid = false ∧
  State.reset.block.err = ⟨false, false, false, false, false, 0#4⟩ ∧
  State.reset.block.out.n = 0#2 ∧ State.reset.block.acc = ⟨0#12, 0#4⟩ ∧
  State.reset.block.digest = ⟨0#32, 0#32, 0#32, 0#32, 0#32⟩ ∧
  State.reset.block.tr = ⟨0#4, 0#31, 0#20, 0#8, 0#8, 0#8, 0#8, 0#8, 0#8⟩ ∧
  (∀ s : State, ∃ t, exec .sreset s = .next t ∧ t.block = State.reset.block) ∧
  (∀ (s : State) (rest : List Event), ∃ t,
    runSteps 2 { s with pending := .assertReset :: .releaseReset :: rest } = .next t ∧
      t.block = State.reset.block ∧ t.inReset = false ∧ t.pending = rest)

/-- 43_control.md R161: `SRESET`, its word, its effect on every piece of state from every state, that a
word with OPC 0xF and another bit set is illegal, and the rule's example. -/
def Obligations.SresetGivesTheResetState : Prop :=
  decode 0xF0000000#32 = .ok .sreset ∧
  (∀ s : State, exec .sreset s = .next { s with block := State.reset.block }) ∧
  (∀ r : Reg, r ≠ .id → readReg State.reset.block r = 0#32) ∧
  (∀ w : Word, w.toNat / 2 ^ 28 = 0xF → w ≠ 0xF0000000#32 → legalWord w = false) ∧
  (∀ b : Block, readReg b .id = 0x42335431#32) ∧
  (∃ s t, runProgram [hostCommand .decStart, hostCommand (.decChar 0x41#8), hostCommand .decEnd]
      State.reset = .next s ∧ readReg s.block .status = 0x00051000#32 ∧
    exec .sreset s = .next t ∧ readReg t.block .status = 0#32)

/-! ### Encoding and decoding -/

/-- 30_encoding.md section 3: a few words of the opcode map, written out, decode to their commands. -/
def Obligations.OpcodeMapWordsDecode : Prop :=
  decode 0x00000000#32 = .ok .nop ∧ decode 0x10000000#32 = .ok .encStart ∧
  decode 0x30000000#32 = .ok .encFlush ∧ decode 0x40000000#32 = .ok .decStart ∧
  decode 0x60000000#32 = .ok .decEnd ∧ decode 0x70000000#32 = .ok .trunc ∧
  decode 0xF0000000#32 = .ok .sreset ∧
  decode 0x2000004D#32 = .ok (.encByte 0x4D#8) ∧ decode 0x200000FF#32 = .ok (.encByte 0xFF#8) ∧
  decode 0x5000007A#32 = .ok (.decChar 0x7A#8) ∧ decode 0x50000080#32 = .ok (.decChar 0x80#8)

/-- 30_encoding.md R84, R85: a word is a command exactly when its opcode is assigned, `RSV` is 0 and
`DATA` is 0 unless the opcode takes it; every other word, every reserved opcode among them, is illegal:
it records `ILLEGAL` and changes nothing else. -/
def Obligations.LegalWordsAreExactlyTheCommands : Prop :=
  ∀ w : Word,
    ((∃ i, decode w = .ok i) ↔
      (w.toNat / 2 ^ 28 ≤ 7 ∨ w.toNat / 2 ^ 28 = 15) ∧ w.toNat / 2 ^ 8 % 2 ^ 20 = 0 ∧
        (w.toNat / 2 ^ 28 = 2 ∨ w.toNat / 2 ^ 28 = 5 ∨ w.toNat % 2 ^ 8 = 0)) ∧
    (legalWord w = true ↔ ∃ i, decode w = .ok i) ∧
    (8 ≤ w.toNat / 2 ^ 28 → w.toNat / 2 ^ 28 ≤ 14 → legalWord w = false) ∧
    (∀ s : State, legalWord w = false → execCommandWord w s = .next (s.raise .illegal))

/-- 30_encoding.md R83, R87: decode and encode agree, in both directions and for every command and
operand: a word decodes to a command exactly when it is the word of that command; the words are the
opcode map's; a `CMD` write of a command's word executes that command, and of any other word records
`ILLEGAL`. -/
def Obligations.DecodeEncodeAgree : Prop :=
  (∀ (i : Instr) (w : Word), decode w = .ok i ↔ w = encode i) ∧
  encode .nop = 0x00000000#32 ∧ encode .encStart = 0x10000000#32 ∧
  (∀ b : Byte, encode (.encByte b) = 0x20000000#32 + b.zeroExtend 32) ∧
  encode .encFlush = 0x30000000#32 ∧ encode .decStart = 0x40000000#32 ∧
  (∀ c : Byte, encode (.decChar c) = 0x50000000#32 + c.zeroExtend 32) ∧
  encode .decEnd = 0x60000000#32 ∧ encode .trunc = 0x70000000#32 ∧
  encode .sreset = 0xF0000000#32 ∧
  (∀ (i : Instr) (s : State), execCommandWord (encode i) s = exec i s) ∧
  (∀ (w : Word) (s : State), (∀ i, w ≠ encode i) →
    execCommandWord w s = .next (s.raise .illegal))

/-- 30_encoding.md section 6: an assembly line whose operand is 0 to 255 assembles to the command whose
word holds that number in `DATA`; any other number is an assembly error. -/
def Obligations.AssemblyOperandsAreZeroTo255 : Prop :=
  ∀ n : Nat,
    (n ≤ 255 →
      (assemble (.encByte n)).map encode = some (BitVec.ofNat 32 (0x20000000 + n)) ∧
      (assemble (.decChar n)).map encode = some (BitVec.ofNat 32 (0x50000000 + n))) ∧
    (255 < n → assemble (.encByte n) = none ∧ assemble (.decChar n) = none)

/-! ### A step and a command write -/

/-- 10_state.md R40 (30_encoding.md R87): a `CMD` write executes the command its word decodes to,
completely, on the state with that access taken from the queue, or records `ILLEGAL`; a read of `CMD`
returns 0 and changes nothing. -/
def Obligations.StepRunsTheDecodedCommand : Prop :=
  ∀ (s : State) (w : Word) (rest : List Event), s.inReset = false →
    (s.pending = .access ⟨.write w, 0x0C, 4⟩ :: rest →
      (∀ i, decode w = .ok i → step s = exec i { s with pending := rest }) ∧
      (∀ e, decode w = .error e →
        step s = .next (({ s with pending := rest } : State).raise .illegal))) ∧
    (s.pending = .access ⟨.read, 0x0C, 4⟩ :: rest →
      step s = .next { s with pending := rest, reads := s.reads ++ [0#32] })

/-- 60_exceptions.md R174: every illegal word is refused with `ILLEGAL`, before any other check and
whatever the state: bit 8 of `STATUS` and the code 1 are recorded and nothing else changes. -/
def Obligations.IllegalWordsAreRefused : Prop :=
  ∀ (w : Word) (s : State),
    ((8 ≤ w.toNat / 2 ^ 28 ∧ w.toNat / 2 ^ 28 ≤ 14) ∨ w.toNat / 2 ^ 8 % 2 ^ 20 ≠ 0 ∨
      (w.toNat % 2 ^ 8 ≠ 0 ∧ w.toNat / 2 ^ 28 ≠ 2 ∧ w.toNat / 2 ^ 28 ≠ 5)) →
    execCommandWord w s =
      .next { s with block :=
        { s.block with err := { s.block.err with illegal := true, last := 1#4 } } }

/-- 60_exceptions.md section 1: no command stops the block. A step stops only on an illegal access (bus
error; log entry 11) or, with hardware reset asserted, on an access, which is given no step
(70_reset_and_hazards.md section 1; log entry 4), or on interleaved use, which is the model's choice
(log entry 5). -/
def Obligations.NothingButIllegalAccessesStopsTheBlock : Prop :=
  (∀ (i : Instr) (s : State), ∃ t, exec i s = .next t) ∧
  (∀ s : State,
    (∃ t, step s = .next t) ∨
    (∃ a, s.nextAccess a ∧ ¬(a.width = 4 ∧ a.off % 4 = 0 ∧ a.off < 0x100) ∧
      step s = .fault (.busError a)) ∨
    (s.inReset = true ∧ (s.nextInterleaved ∨ ∃ a, s.pending.head? = some (.access a)) ∧
      step s = .fault .accessInReset))

/-- 20_memory.md R66, R67: accesses are performed one after another in order: a program `p` followed by
`q` gives what `q` gives from the state `p` leaves. -/
def Obligations.ProgramsRunInSequence : Prop :=
  ∀ (p q : List Access) (s : State),
    (∀ t, runProgram p (s.withProgram q) = .next t →
      t.pending = (s.withProgram q).pending ∧
      runProgram (p ++ q) s = runProgram q { t with pending := s.pending })

/-- 70_reset_and_hazards.md R212: a program of legal accesses runs to its end, one access after another,
and is observed by the values its reads returned, in order, and the block after its last access; an
illegal access ends a program there as a fault, observed as the accesses before it left it; and vector
P5b of 95_test_vectors.md. -/
def Obligations.HostProgramsAreObserved : Prop :=
  (∀ b : Block, observe [] b = ([], b)) ∧
  (∀ (p : List Access) (b : Block), (∀ a ∈ p, a.legal = true) →
    programEnd p b = .completed ∧
    (∃ t, runProgram p (State.reset.setBlock b) = .next t ∧ t.pending = [] ∧
      observe p b = (t.reads, t.block)) ∧
    (∀ off, off % 4 = 0 → off < 0x100 → observe (p ++ [⟨.read, off, 4⟩]) b =
      ((observe p b).1 ++ [readReg (observe p b).2 (regAt off)],
        (observe (p ++ [⟨.read, off, 4⟩]) b).2)) ∧
    (∀ off v, off % 4 = 0 → off < 0x100 →
      (observe (p ++ [⟨.write v, off, 4⟩]) b).1 = (observe p b).1) ∧
    (∀ (a : Access) (q : List Access), a.legal = false →
      programEnd (p ++ a :: q) b = .fault (.busError a) ∧
      observe (p ++ a :: q) b = observe p b)) ∧
  programEnd [⟨.write 0x10#32, 0x0C, 1⟩] State.reset.block =
    .fault (.busError ⟨.write 0x10#32, 0x0C, 1⟩) ∧
  observe [⟨.write 0x10#32, 0x0C, 1⟩] State.reset.block = ([], State.reset.block)

/-! ### Encoder -/

/-- 40_encoder.md R100: the alphabet, group by group. -/
def Obligations.AlphabetIsTheThirtyTwoCodes : Prop :=
  (List.range 32).map (fun g => (alphabet (BitVec.ofNat 5 g)).toNat) =
    "ABCDEFGHIJKLMNOPQRSTUVWXYZ234567".toList.map Char.toNat ∧
  (∀ g : Group, (g.toNat ≤ 25 → (alphabet g).toNat = 0x41 + g.toNat) ∧
    (26 ≤ g.toNat → (alphabet g).toNat = 0x32 + (g.toNat - 26)))

/-- 40_encoder.md R102: `ENC_START`, its word, its effect and nothing else from every state, that output
left unread refuses the next `ENC_BYTE`, and the rule's example. -/
def Obligations.EncStartBeginsAnEncode : Prop :=
  decode 0x10000000#32 = .ok .encStart ∧
  (∀ s : State, exec .encStart s =
    .next { s with block := { s.block with
      mode := 0b01#2, acc := ⟨0#12, 0#4⟩, counters := ⟨0#32, 0#32, 0#32⟩ } }) ∧
  (∀ (s t : State) (b : Byte), s.block.outUnread = true → exec .encStart s = .next t →
    exec (.encByte b) t = .next (t.raise .ovr)) ∧
  (∃ t, exec .encStart State.reset = .next t ∧ readReg t.block .status = 0x00000002#32 ∧
    readReg t.block .acc = 0#32)

/-- 40_encoder.md R103: `ENC_BYTE b`: `SEQ` outside `ENC`, then `OVR` with unread output, else one or two
characters from the highest pending bits, the rest kept, the input counted, and nothing else changed;
its word and the rule's example. The pending count is at most 14 where two characters leave: with 15, a
count no rule lets arise, 13 bits would be kept in the 12 of `BUF` (see
`OverfullEncodeStillCompletes`). -/
def Obligations.EncByteEmitsTheHighestGroups : Prop :=
  (∀ (b : Byte) (s : State),
    decode (0x20000000#32 + b.setWidth 32) = .ok (.encByte b) ∧
    (s.block.mode ≠ 0b01#2 → exec (.encByte b) s = .next (s.raise .seq)) ∧
    (s.block.mode = 0b01#2 → s.block.outUnread = true →
      exec (.encByte b) s = .next (s.raise .ovr)) ∧
    (s.block.mode = 0b01#2 → s.block.outUnread = false →
      let n := s.block.acc.cnt.toNat + 8
      let v := s.block.acc.buf.toNat * 2 ^ 8 + b.toNat
      let c := s.block.counters
      (n < 10 → exec (.encByte b) s = .next { s with block := { s.block with
        out := ⟨1#2, alphabet (BitVec.ofNat 5 (v / 2 ^ (n - 5) % 2 ^ 5)), 0#8⟩
        outUnread := true
        acc := ⟨BitVec.ofNat 12 (v % 2 ^ (n - 5)), BitVec.ofNat 4 (n - 5)⟩
        counters := ⟨BitVec.ofNat 32 (min (c.input.toNat + 1) 0xFFFFFFFF), c.skip,
          BitVec.ofNat 32 (min (c.output.toNat + 1) 0xFFFFFFFF)⟩ } }) ∧
      (10 ≤ n → n ≤ 22 → exec (.encByte b) s = .next { s with block := { s.block with
        out := ⟨2#2, alphabet (BitVec.ofNat 5 (v / 2 ^ (n - 5) % 2 ^ 5)),
          alphabet (BitVec.ofNat 5 (v / 2 ^ (n - 10) % 2 ^ 5))⟩
        outUnread := true
        acc := ⟨BitVec.ofNat 12 (v % 2 ^ (n - 10)), BitVec.ofNat 4 (n - 10)⟩
        counters := ⟨BitVec.ofNat 32 (min (c.input.toNat + 1) 0xFFFFFFFF), c.skip,
          BitVec.ofNat 32 (min (c.output.toNat + 2) 0xFFFFFFFF)⟩ } }))) ∧
  (∃ s t, exec .encStart State.reset = .next s ∧ exec (.encByte 0x66#8) s = .next t ∧
    readReg t.block .out = 0x4D000001#32 ∧ readReg t.block .acc = 0x00030006#32)

/-- 40_encoder.md R104: `ENC_FLUSH`: `SEQ` outside `ENC`; with nothing pending it only ends the
operation; with pending bits `OVR` if output is unread, else the zero-padded group is emitted and the
operation ends; nothing else changes; its word and the rule's example. The pending count is at most 5
here: the rule's shift has no value for more (see the statement after this one). -/
def Obligations.EncFlushEmitsThePaddedGroup : Prop :=
  decode 0x30000000#32 = .ok .encFlush ∧
  (∀ s : State,
    (s.block.mode ≠ 0b01#2 → exec .encFlush s = .next (s.raise .seq)) ∧
    (s.block.mode = 0b01#2 → s.block.acc.cnt = 0#4 → exec .encFlush s =
      .next { s with block := { s.block with mode := 0b00#2, acc := ⟨0#12, 0#4⟩ } }) ∧
    (s.block.mode = 0b01#2 → s.block.acc.cnt ≠ 0#4 → s.block.outUnread = true →
      exec .encFlush s = .next (s.raise .ovr)) ∧
    (s.block.mode = 0b01#2 → s.block.acc.cnt ≠ 0#4 → s.block.outUnread = false →
      s.block.acc.cnt.toNat ≤ 5 → exec .encFlush s =
      .next { s with block := { s.block with
        mode := 0b00#2
        acc := ⟨0#12, 0#4⟩
        out := ⟨1#2, alphabet (BitVec.ofNat 5
          (s.block.acc.buf.toNat * 2 ^ (5 - s.block.acc.cnt.toNat) % 2 ^ 5)), 0#8⟩
        outUnread := true
        counters := { s.block.counters with
          output := BitVec.ofNat 32 (min (s.block.counters.output.toNat + 1) 0xFFFFFFFF) } } })) ∧
  (∃ s t, runProgram (hostCommand .encStart :: encByteRd 0x66#8) State.reset = .next s ∧
    exec .encFlush s = .next t ∧ readReg t.block .out = 0x59000001#32)

/-- The model's choices (log entries 7 and 8), in states only interleaved use reaches, where the rules
give no value (40_encoder.md section 3): `ENC_FLUSH` with `ACC.CNT` above 5, whose shift `5 - ACC.CNT` has
none, and `ENC_BYTE` with `ACC.CNT` = 15, which keeps 13 bits, still complete, with some group emitted or
some `ACC.BUF` kept and every other effect as the rules say. -/
def Obligations.OverfullEncodeStillCompletes : Prop :=
  ∀ s : State, s.block.mode = 0b01#2 → s.block.outUnread = false →
    (5 < s.block.acc.cnt.toNat → ∃ g : Group, exec .encFlush s =
      .next { s with
        freeIdx := s.freeIdx + 1
        block := { s.block with
          mode := 0b00#2
          acc := ⟨0#12, 0#4⟩
          out := ⟨1#2, alphabet g, 0#8⟩
          outUnread := true
          counters := { s.block.counters with
            output := BitVec.ofNat 32 (min (s.block.counters.output.toNat + 1) 0xFFFFFFFF) } } }) ∧
    (∀ b : Byte, s.block.acc.cnt = 15#4 → ∃ buf : BitVec 12, exec (.encByte b) s =
      .next { s with
        block := { s.block with
          acc := ⟨buf, 13#4⟩
          out := ⟨2#2,
            alphabet (BitVec.ofNat 5 ((s.block.acc.buf.toNat * 2 ^ 8 + b.toNat) / 2 ^ 18 % 2 ^ 5)),
            alphabet (BitVec.ofNat 5 ((s.block.acc.buf.toNat * 2 ^ 8 + b.toNat) / 2 ^ 13 % 2 ^ 5))⟩
          outUnread := true
          counters := ⟨BitVec.ofNat 32 (min (s.block.counters.input.toNat + 1) 0xFFFFFFFF),
            s.block.counters.skip,
            BitVec.ofNat 32 (min (s.block.counters.output.toNat + 2) 0xFFFFFFFF)⟩ } })

/-- 40_encoder.md section 4: whatever an encoder command emits is in the alphabet, so it is never `=` and
never a lower-case letter. -/
def Obligations.EncoderEmitsOnlyAlphabetCodes : Prop :=
  ∀ (i : Instr) (s t : State), (i = .encFlush ∨ ∃ b, i = .encByte b) → exec i s = .next t →
    t.block.out = s.block.out ∨
    (0 < (outBytes (readReg t.block .out)).length ∧
      ∀ c ∈ outBytes (readReg t.block .out),
        (∃ g, c = alphabet g) ∧ c ≠ 0x3D#8 ∧ ¬(0x61 ≤ c.toNat ∧ c.toNat ≤ 0x7A))

/-! ### Decoder -/

/-- 41_decoder.md R120: the character map on all 256 codes, the inverse of the alphabet extended to lower
case. -/
def Obligations.LookupIsTheCharacterMap : Prop :=
  (∀ c : Byte,
    (0x41 ≤ c.toNat → c.toNat ≤ 0x5A → (lookup c).map BitVec.toNat = some (c.toNat - 0x41)) ∧
    (0x61 ≤ c.toNat → c.toNat ≤ 0x7A → (lookup c).map BitVec.toNat = some (c.toNat - 0x61)) ∧
    (0x32 ≤ c.toNat → c.toNat ≤ 0x37 → (lookup c).map BitVec.toNat = some (c.toNat - 0x32 + 26)) ∧
    (¬(0x41 ≤ c.toNat ∧ c.toNat ≤ 0x5A) → ¬(0x61 ≤ c.toNat ∧ c.toNat ≤ 0x7A) →
      ¬(0x32 ≤ c.toNat ∧ c.toNat ≤ 0x37) → lookup c = none)) ∧
  (∀ g : Group, lookup (alphabet g) = some g)

/-- 41_decoder.md R122: `DEC_START`, its word, its effect and nothing else from every state, and the
rule's example. -/
def Obligations.DecStartBeginsADecode : Prop :=
  decode 0x40000000#32 = .ok .decStart ∧
  (∀ s : State, exec .decStart s =
    .next { s with block := { s.block with
      mode := 0b10#2, acc := ⟨0#12, 0#4⟩, counters := ⟨0#32, 0#32, 0#32⟩ } }) ∧
  (∃ t, exec .decStart State.reset = .next t ∧ readReg t.block .status = 0x00000004#32)

/-- 41_decoder.md R123, with the unknown characters' part of 60_exceptions.md R177: `DEC_CHAR c`: `SEQ`
outside `DEC`; an unknown character is skipped and counted, with `BADCHAR` recorded only under `STRICT`;
a known one is refused with `OVR` when it would emit while output is unread, else its 5 bits enter and a
byte leaves when 8 are there; nothing else changes; its word and the rule's example. -/
def Obligations.DecCharSkipsOrShiftsIn : Prop :=
  (∀ (c : Byte) (s : State),
    decode (0x50000000#32 + c.setWidth 32) = .ok (.decChar c) ∧
    (s.block.mode ≠ 0b10#2 → exec (.decChar c) s = .next (s.raise .seq)) ∧
    (s.block.mode = 0b10#2 → lookup c = none → exec (.decChar c) s =
      .next { s with block := { s.block with
        counters := { s.block.counters with
          skip := BitVec.ofNat 32 (min (s.block.counters.skip.toNat + 1) 0xFFFFFFFF) }
        err := if s.block.strict then { s.block.err with badchar := true, last := 4#4 }
          else s.block.err } }) ∧
    (∀ x, s.block.mode = 0b10#2 → lookup c = some x →
      let n := s.block.acc.cnt.toNat + 5
      let v := s.block.acc.buf.toNat * 2 ^ 5 + x.toNat
      let k := s.block.counters
      (3 ≤ s.block.acc.cnt.toNat → s.block.outUnread = true →
        exec (.decChar c) s = .next (s.raise .ovr)) ∧
      (3 ≤ s.block.acc.cnt.toNat → s.block.outUnread = false →
        exec (.decChar c) s = .next { s with block := { s.block with
          out := ⟨1#2, BitVec.ofNat 8 (v / 2 ^ (n - 8) % 2 ^ 8), 0#8⟩
          outUnread := true
          acc := ⟨BitVec.ofNat 12 (v % 2 ^ (n - 8)), BitVec.ofNat 4 (n - 8)⟩
          counters := ⟨BitVec.ofNat 32 (min (k.input.toNat + 1) 0xFFFFFFFF), k.skip,
            BitVec.ofNat 32 (min (k.output.toNat + 1) 0xFFFFFFFF)⟩ } }) ∧
      (s.block.acc.cnt.toNat < 3 →
        exec (.decChar c) s = .next { s with block := { s.block with
          acc := ⟨BitVec.ofNat 12 (v % 2 ^ n), BitVec.ofNat 4 n⟩
          counters := { k with
            input := BitVec.ofNat 32 (min (k.input.toNat + 1) 0xFFFFFFFF) } } }))) ∧
  (∃ s t u, exec .decStart State.reset = .next s ∧ exec (.decChar 0x4D#8) s = .next t ∧
    readReg t.block .acc = 0x0005000C#32 ∧ t.block.outUnread = false ∧
    exec (.decChar 0x5A#8) t = .next u ∧ readReg u.block .out = 0x66000001#32 ∧
    readReg u.block .acc = 0x00020001#32)

/-- 41_decoder.md R124: `DEC_END`: `SEQ` outside `DEC`; else the pending bits are discarded, the mode is
`IDLE`, `EMPTY` is recorded exactly when `OUT_COUNT` is 0, and nothing else changes; its word and the
rule's example. -/
def Obligations.DecEndDiscardsAndReportsEmpty : Prop :=
  decode 0x60000000#32 = .ok .decEnd ∧
  (∀ s : State,
    (s.block.mode ≠ 0b10#2 → exec .decEnd s = .next (s.raise .seq)) ∧
    (s.block.mode = 0b10#2 → exec .decEnd s =
      .next { s with block := { s.block with
        mode := 0b00#2
        acc := ⟨0#12, 0#4⟩
        err := if s.block.counters.output = 0#32
          then { s.block.err with empty := true, last := 5#4 } else s.block.err } })) ∧
  (∃ t, runProgram [hostCommand .decStart, hostCommand (.decChar 0x41#8), hostCommand .decEnd]
      State.reset = .next t ∧ readReg t.block .status = 0x00051000#32 ∧ t.block.out.n = 0#2)

/-- 40_encoder.md section 3 and 41_decoder.md section 3 (the corner-case tables, which the spec derives):
how many bytes an accepted input emits and the next `ACC.CNT` depend only on `ACC.CNT` before it. -/
def Obligations.AccumulatorCountsFollowTheTables : Prop :=
  (∀ (b : Byte) (s : State), s.block.mode = Mode.enc → s.block.outUnread = false →
    s.block.acc.cnt.toNat ≤ 4 →
    ∃ t, exec (.encByte b) s = .next t ∧
      (t.block.out.n.toNat, t.block.acc.cnt.toNat) =
        [(1, 3), (1, 4), (2, 0), (2, 1), (2, 2)].getD s.block.acc.cnt.toNat (0, 0)) ∧
  (∀ (c : Byte) (x : Group) (s : State), lookup c = some x → s.block.mode = Mode.dec →
    s.block.outUnread = false → s.block.acc.cnt.toNat ≤ 7 →
    ∃ t, exec (.decChar c) s = .next t ∧
      (t.block.outUnread.toNat, t.block.acc.cnt.toNat) =
        [(0, 5), (0, 6), (0, 7), (1, 0), (1, 1), (1, 2), (1, 3), (1, 4)].getD
          s.block.acc.cnt.toNat (0, 0))

/-! ### Truncation -/

/-- 42_truncation.md R140: the truncation function on every digest, over the digest's bytes as naturals. -/
def Obligations.TruncationFunctionIsAsStated : Prop :=
  ∀ d : Digest,
    let D := fun i : Nat =>
      ([d.w0, d.w1, d.w2, d.w3, d.w4].getD (i / 4) 0#32).toNat / 2 ^ (8 * (3 - i % 4)) % 2 ^ 8
    let off := D 19 % 16
    let P := D off % 2 ^ 7 * 2 ^ 24 + D (off + 1) * 2 ^ 16 + D (off + 2) * 2 ^ 8 + D (off + 3)
    let code := P % 1000000
    (truncate d).offset.toNat = off ∧ (truncate d).p.toNat = P ∧
    (truncate d).code.toNat = code ∧
    [(truncate d).d0, (truncate d).d1, (truncate d).d2, (truncate d).d3, (truncate d).d4,
      (truncate d).d5].map BitVec.toNat =
      (List.range 6).map fun i => 0x30 + code / 10 ^ (5 - i) % 10

/-- 42_truncation.md R141: `TRUNC`, its word, its effect and nothing else from every state and in every
mode, the registers that show the results, and the rule's example. -/
def Obligations.TruncWritesTheResults : Prop :=
  decode 0x70000000#32 = .ok .trunc ∧
  (∀ s : State, ∃ t, exec .trunc s = .next t ∧
    t = { s with block := { s.block with tr := truncate s.block.digest, trValid := true } } ∧
    readReg t.block .trOffset = (truncate s.block.digest).offset.zeroExtend 32 ∧
    readReg t.block .trP = (truncate s.block.digest).p.zeroExtend 32 ∧
    (readReg t.block .trP).getLsbD 31 = false ∧
    readReg t.block .trCode = (truncate s.block.digest).code.zeroExtend 32 ∧
    readReg t.block .trAscii0 = (truncate s.block.digest).d0 ++ (truncate s.block.digest).d1 ++
      (truncate s.block.digest).d2 ++ (truncate s.block.digest).d3 ∧
    readReg t.block .trAscii1 = (truncate s.block.digest).d4 ++ (truncate s.block.digest).d5 ++
      0#8 ++ 0#8) ∧
  (∃ t, runProgram (loadDigest ⟨0xCC93CF18#32, 0x508D9493#32, 0x4C64B65D#32, 0x8BA7667F#32,
      0xB7CDE4B0#32⟩ ++ [hostCommand .trunc]) State.reset = .next t ∧
    readReg t.block .trOffset = 0#32 ∧ readReg t.block .trP = 0x4C93CF18#32 ∧
    readReg t.block .trCode = 0x000B8618#32 ∧ readReg t.block .trAscii0 = 0x37353532#32 ∧
    readReg t.block .trAscii1 = 0x32340000#32)

/-- 42_truncation.md section 3 (relations the spec derives): after every `TRUNC` the code is `TR_P` mod
10^6 and below it, the six digits are ASCII digits, the rest of `TR_ASCII1` is 0, and the digits read as
a decimal number are the code. -/
def Obligations.TruncResultsAreConsistent : Prop :=
  ∀ s : State, ∃ t, exec .trunc s = .next t ∧
    (readReg t.block .trOffset).toNat ≤ 15 ∧ (readReg t.block .trP).toNat ≤ 0x7FFFFFFF ∧
    (readReg t.block .trCode).toNat = (readReg t.block .trP).toNat % 1000000 ∧
    (readReg t.block .trCode).toNat ≤ 999999 ∧
    (readReg t.block .trAscii1).toNat % 2 ^ 16 = 0 ∧
    let a0 := (readReg t.block .trAscii0).toNat
    let a1 := (readReg t.block .trAscii1).toNat
    let digits := [a0 / 2 ^ 24, a0 / 2 ^ 16 % 2 ^ 8, a0 / 2 ^ 8 % 2 ^ 8, a0 % 2 ^ 8, a1 / 2 ^ 24,
      a1 / 2 ^ 16 % 2 ^ 8]
    (∀ c ∈ digits, 0x30 ≤ c ∧ c ≤ 0x39) ∧
    digits.foldl (fun n c => 10 * n + (c - 0x30)) 0 = (readReg t.block .trCode).toNat

/-- 42_truncation.md section 3 and 00_scope.md section 2: the two units share no state: a `TRUNC` before
or after any codec command leaves the same state. -/
def Obligations.TruncCommutesWithTheCodec : Prop :=
  ∀ (i : Instr) (s : State), isCodecCommand i = true →
    ∃ t u v, exec .trunc s = .next t ∧ exec i t = .next u ∧
      exec i s = .next v ∧ exec .trunc v = .next u

/-- 42_truncation.md section 3: the results depend only on the digest: from two states with one digest,
whatever else differs, `TRUNC` leaves the same results. -/
def Obligations.TruncDependsOnTheDigestAlone : Prop :=
  ∀ s s' : State, s.block.digest = s'.block.digest →
    ∃ t t', exec .trunc s = .next t ∧ exec .trunc s' = .next t' ∧
      t.block.tr = t'.block.tr ∧ t.block.trValid = t'.block.trValid

/-- 30_encoding.md section 6 and 42_truncation.md section 3: `TOTP.CODE d`, run on any block, reads the
code and the digits of `d`, and leaves the codec as it was. -/
def Obligations.LoadedDigestGivesItsCode : Prop :=
  ∀ (d : Digest) (b : Block),
    programEnd (totpCode d) b = .completed ∧ observe (totpCode d) b =
      ([(truncate d).code.zeroExtend 32,
        (truncate d).d0 ++ (truncate d).d1 ++ (truncate d).d2 ++ (truncate d).d3,
        (truncate d).d4 ++ (truncate d).d5 ++ 0#16],
      { b with digest := d, tr := truncate d, trValid := true })

/-! ### Control -/

/-- 43_control.md R160: `NOP` changes nothing, whatever the state, and a word with OPC 0x0 and another bit
set is illegal. -/
def Obligations.NopChangesNothing : Prop :=
  decode 0#32 = .ok .nop ∧ (∀ s : State, exec .nop s = .next s) ∧
  (∀ w : Word, w.toNat / 2 ^ 28 = 0 → w ≠ 0#32 → legalWord w = false)

/-! ### Errors -/

/-- 60_exceptions.md R172: recording an error sets bit 7 + k of `STATUS` and makes `LAST_ERR` k, and
changes no other bit of `STATUS` and no other state. -/
def Obligations.RaisingSetsOneBitAndTheCode : Prop :=
  ∀ (c : Cause) (b : Block),
    let k := match c with
      | .illegal => 1 | .seq => 2 | .ovr => 3 | .badchar => 4 | .empty => 5
    readReg (b.raise c) .status =
      ((readReg b .status &&& 0xFFF0FFFF#32) ||| BitVec.ofNat 32 (2 ^ (7 + k))) |||
        BitVec.ofNat 32 (k * 2 ^ 16) ∧
    (b.raise c) = { b with err := (b.raise c).err }

/-- 60_exceptions.md R175 and R176: which commands need which mode, and which would emit: out of its mode
a command records `SEQ`; in it, one that would emit with output unread records `OVR`; either way nothing
but the error changes. -/
def Obligations.WrongModeAndUnreadOutputRefuse : Prop :=
  ∀ (s : State) (b c : Byte),
    (s.block.mode ≠ Mode.enc →
      exec (.encByte b) s = .next (s.raise .seq) ∧ exec .encFlush s = .next (s.raise .seq)) ∧
    (s.block.mode ≠ Mode.dec →
      exec (.decChar c) s = .next (s.raise .seq) ∧ exec .decEnd s = .next (s.raise .seq)) ∧
    (s.block.outUnread = true →
      (s.block.mode = Mode.enc → exec (.encByte b) s = .next (s.raise .ovr) ∧
        (0 < s.block.acc.cnt.toNat → exec .encFlush s = .next (s.raise .ovr))) ∧
      (s.block.mode = Mode.dec → 3 ≤ s.block.acc.cnt.toNat → lookup c ≠ none →
        exec (.decChar c) s = .next (s.raise .ovr))) ∧
    (∀ i ∈ [Instr.encStart, .decStart, .trunc, .nop], ∃ t, exec i s = .next t ∧
      t.block.err = s.block.err) ∧
    (∃ t, exec .sreset s = .next t ∧ t.block.err.seq = false)

/-- 60_exceptions.md section 1 (R173): a refused command changes nothing but the error fields; and the
error fields influence no command, so that the same word written again after the cause is mended
executes as if the first write had never happened. -/
def Obligations.RefusalIsPrecise : Prop :=
  (∀ (i : Instr) (s : State) (c : Cause), refusalCause i s.block = some c →
    exec i s = .next { s with block := { s.block with err := recordError c s.block.err } }) ∧
  (∀ (i : Instr) (s : State) (e : Errors), ∃ t u, exec i s = .next t ∧
    exec i { s with block := { s.block with err := e } } = .next u ∧
    u = { t with block := { t.block with err := u.block.err } })

/-- 60_exceptions.md section 3 (which the spec derives): one command records at most one error, the first
that applies of `SEQ`, `OVR`, and then `BADCHAR` or `EMPTY`. `SRESET` alone clears what was recorded. -/
def Obligations.OneCommandRecordsAtMostOneError : Prop :=
  ∀ (i : Instr) (s : State), i ≠ .sreset → ∃ t, exec i s = .next t ∧
    t.block.err = match commandError i s.block with
      | none => s.block.err
      | some c => recordError c s.block.err

/-- 10_state.md section 4 and 60_exceptions.md section 4: a sticky error bit clears only by the host's
write of 1 to it in `STATUS` or by a reset, and `LAST_ERR` returns to 0 only by a reset. -/
def Obligations.OnlyTheHostAndResetClearErrors : Prop :=
  ∀ s t : State, step s = .next t → ¬s.nextResets → ¬s.nextInterleaved →
    (∀ k, 8 ≤ k → k ≤ 12 → (readReg s.block .status).getLsbD k = true →
      (readReg t.block .status).getLsbD k = true ∨
      ∃ a v, s.nextAccess a ∧ a = hostWrite .status v ∧ v.getLsbD k = true) ∧
    (s.block.err.last ≠ 0#4 → t.block.err.last ≠ 0#4)

/-! ### Registers and accesses -/

/-- 10_state.md sections 3 to 8 (R23 to R27, R30 to R34, R36 to R40): the value of every register as a
number, field by field, every other bit 0. -/
def Obligations.RegistersShowTheirFields : Prop :=
  ∀ b : Block,
    (readReg b .id).toNat = 0x42335431 ∧
    (readReg b .ctrl).toNat = b.strict.toNat ∧
    (readReg b .status).toNat = b.outUnread.toNat + 2 ^ 1 * b.mode.toNat + 2 ^ 3 * b.trValid.toNat +
      2 ^ 8 * b.err.illegal.toNat + 2 ^ 9 * b.err.seq.toNat + 2 ^ 10 * b.err.ovr.toNat +
      2 ^ 11 * b.err.badchar.toNat + 2 ^ 12 * b.err.empty.toNat + 2 ^ 16 * b.err.last.toNat ∧
    (readReg b .cmd).toNat = 0 ∧
    (readReg b .out).toNat = b.out.n.toNat + 2 ^ 16 * b.out.b1.toNat + 2 ^ 24 * b.out.b0.toNat ∧
    (readReg b .acc).toNat = b.acc.buf.toNat + 2 ^ 16 * b.acc.cnt.toNat ∧
    (readReg b .inCount).toNat = b.counters.input.toNat ∧
    (readReg b .skipCount).toNat = b.counters.skip.toNat ∧
    (readReg b .outCount).toNat = b.counters.output.toNat ∧
    (readReg b .digest0).toNat = b.digest.w0.toNat ∧
    (readReg b .digest1).toNat = b.digest.w1.toNat ∧
    (readReg b .digest2).toNat = b.digest.w2.toNat ∧
    (readReg b .digest3).toNat = b.digest.w3.toNat ∧
    (readReg b .digest4).toNat = b.digest.w4.toNat ∧
    (readReg b .trOffset).toNat = b.tr.offset.toNat ∧ (readReg b .trP).toNat = b.tr.p.toNat ∧
    (readReg b .trCode).toNat = b.tr.code.toNat ∧
    (readReg b .trAscii0).toNat = 2 ^ 24 * b.tr.d0.toNat + 2 ^ 16 * b.tr.d1.toNat +
      2 ^ 8 * b.tr.d2.toNat + b.tr.d3.toNat ∧
    (readReg b .trAscii1).toNat = 2 ^ 24 * b.tr.d4.toNat + 2 ^ 16 * b.tr.d5.toNat ∧
    (readReg b .reserved).toNat = 0

/-- 10_state.md R29, 20_memory.md R62 (its reads) and R65 (its reads): a legal read returns the register
at its offset; only a read of `OUT` changes the block, and only `OUT_UNREAD`; a second read returns the
same value. -/
def Obligations.HostReadsReturnTheRegister : Prop :=
  ∀ (s : State) (off : Nat) (rest : List Event), s.inReset = false → off % 4 = 0 → off < 0x100 →
    s.pending = .access ⟨.read, off, 4⟩ :: rest →
    step s = .next { s with
      pending := rest
      reads := s.reads ++ [readReg s.block (regAt off)]
      block := if off = 0x10 then { s.block with outUnread := false } else s.block } ∧
    (∀ t, step s = .next t → readReg t.block (regAt 0x10) = readReg s.block (regAt 0x10)) ∧
    (0x4C ≤ off → readReg s.block (regAt off) = 0#32)

/-- 10_state.md R41: the register map: each register stands at its offset, and every legal offset from
0x4C on is reserved. -/
def Obligations.RegisterMapIsAsStated : Prop :=
  [Reg.id, .ctrl, .status, .cmd, .out, .acc, .inCount, .skipCount, .outCount, .digest0, .digest1,
    .digest2, .digest3, .digest4, .trOffset, .trP, .trCode, .trAscii0, .trAscii1] =
    (List.range 19).map (fun k => regAt (4 * k)) ∧
  (∀ off, 0x4C ≤ off → regAt off = .reserved) ∧ (∀ r : Reg, regAt (regOffset r) = r)

/-- 10_state.md R26: a `STATUS` write clears each of bits 8 to 12 written with 1 and changes nothing
else. -/
def Obligations.StatusWriteClearsTheBitsWrittenOne : Prop :=
  ∀ (s : State) (v : Word) (rest : List Event), s.inReset = false →
    s.pending = .access ⟨.write v, 0x08, 4⟩ :: rest →
    ∃ t, step s = .next t ∧
      readReg t.block .status = readReg s.block .status &&& ~~~(v &&& 0x00001F00#32) ∧
      t = { s with pending := rest, block := { s.block with err := t.block.err } } ∧
      t.block.err.last = s.block.err.last

/-- 10_state.md R23 (the write): a `CTRL` write stores bit 0 as `STRICT` and changes nothing else, and a
read then returns that bit alone. -/
def Obligations.CtrlWriteStoresStrictOnly : Prop :=
  ∀ (s : State) (v : Word) (rest : List Event), s.inReset = false →
    s.pending = .access ⟨.write v, 0x04, 4⟩ :: rest →
    ∃ t, step s = .next t ∧
      t = { s with pending := rest, block := { s.block with strict := v.getLsbD 0 } } ∧
      readReg t.block .ctrl = v &&& 1#32

/-- 10_state.md R34 and R35: a write to `DIGESTk` stores all 32 bits, as the bytes `D[4k]` (bits 31:24) to
`D[4k+3]`, leaves the other bytes, clears `TR_VALID`, and changes nothing else, the results among
it. -/
def Obligations.DigestWriteStoresFourBytes : Prop :=
  ∀ (s : State) (v : Word) (k : Nat) (rest : List Event), s.inReset = false → k < 5 →
    s.pending = .access ⟨.write v, 0x24 + 4 * k, 4⟩ :: rest →
    ∃ t, step s = .next t ∧
      readReg t.block (regAt (0x24 + 4 * k)) = v ∧
      (∀ i, i < 20 → digestByte t.block.digest i =
        if i / 4 = k then BitVec.ofNat 8 (v.toNat / 2 ^ (8 * (3 - i % 4)))
        else digestByte s.block.digest i) ∧
      t = { s with
        pending := rest, block := { s.block with digest := t.block.digest, trValid := false } }

/-- 20_memory.md R62, and the writes of R63 to read-only registers: a write to a read-only register or to a
reserved offset is ignored, and a read of a reserved offset returns 0; no error, no side effect. -/
def Obligations.ReadOnlyAndReservedIgnoreWrites : Prop :=
  ∀ (s : State) (v : Word) (off : Nat) (rest : List Event), s.inReset = false →
    off % 4 = 0 → off < 0x100 →
    ((off = 0x00 ∨ (0x10 ≤ off ∧ off ≤ 0x20) ∨ 0x38 ≤ off) →
      s.pending = .access ⟨.write v, off, 4⟩ :: rest →
      step s = .next { s with pending := rest }) ∧
    (0x4C ≤ off → s.pending = .access ⟨.read, off, 4⟩ :: rest →
      step s = .next { s with pending := rest, reads := s.reads ++ [0#32] })

/-- 20_memory.md R61 and 60_exceptions.md R179: an access that is not 32 bits wide, 4-byte aligned and
inside the window is answered with a bus error, the fault that ends the host program there. -/
def Obligations.IllegalAccessIsABusError : Prop :=
  ∀ (s : State) (a : Access) (rest : List Event), s.inReset = false →
    s.pending = .access a :: rest →
    (¬(a.width = 4 ∧ a.off % 4 = 0 ∧ a.off < 0x100) → step s = .fault (.busError a)) ∧
    (a.width = 4 → a.off % 4 = 0 → a.off < 0x100 → ∃ t, step s = .next t)

/-- 20_memory.md sections 1 and 2 (R60, R72; log entry 9): for every base address, an access reaches the
block exactly when its address is in `[BASE, BASE + 0x100)`, at the offset from `BASE`. -/
def Obligations.WindowHoldsTheAddressesFromBase : Prop :=
  ∀ (base : Nat) (a : BusAccess),
    (∀ off, off < 0x100 → a.addr = base + off →
      busEvent base a = some (.access ⟨a.kind, off, a.width⟩)) ∧
    (a.addr < base ∨ base + 0x100 ≤ a.addr → busEvent base a = none)

/-- 70_reset_and_hazards.md section 1 and 93_implementation_defined.md section 2 (log entry 4): asserting
hardware reset puts the block into its reset state; while it is asserted no access is performed; and
releasing it changes nothing else. -/
def Obligations.HardwareResetHoldsTheBlock : Prop :=
  ∀ (s : State) (rest : List Event),
    (s.pending = .assertReset :: rest → step s =
      .next { s with pending := rest, block := State.reset.block, inReset := true }) ∧
    (s.pending = .releaseReset :: rest → step s =
      .next { s with pending := rest, inReset := false }) ∧
    (∀ a, s.inReset = true → s.pending = .access a :: rest → step s = .fault .accessInReset)

/-- 60_exceptions.md section 7 and 93_implementation_defined.md section 2 (log entry 6): interleaved use
by a second master leaves the block of the next free values, of which nothing is known, uses up as many
of them as it has fields, and changes nothing else: the model's choice of how the spec's "any value" is
written. -/
def Obligations.InterleavedUseLeavesSomeBlock : Prop :=
  ∀ (s : State) (rest : List Event), s.inReset = false → s.pending = .interleaved :: rest →
    step s = .next { s with
      pending := rest, block := freeBlock s.freeIdx, freeIdx := s.freeIdx + freeBlockSize }

/-! ### Invariants and rules of the whole machine -/

/-- The invariants below hold in the reset state. -/
def Obligations.ResetStateMeetsTheInvariants : Prop :=
  State.reset.block.codecOk ∧ State.reset.block.outOk ∧ State.reset.block.errOk ∧
  State.reset.block.truncOk ∧ State.reset.block.countsOk ∧ State.reset.exclusive ∧
  State.reset.heldInReset

/-- 10_state.md sections 4 and 6 (the accumulator's invariants, which the spec derives): every step of a
host with exclusive use keeps `MODE` a mode and the accumulator within its mode's bounds. -/
def Obligations.StepKeepsTheAccumulatorBounds : Prop :=
  ∀ s t : State, s.exclusive → s.block.codecOk → step s = .next t →
    t.exclusive ∧ t.block.codecOk

/-- 10_state.md section 5 and 60_exceptions.md section 1: every step of a host with exclusive use keeps
the form of `OUT` and of the error fields, and a block held in reset at its reset values. That the block
has its reset values while hardware reset is still asserted is the model's choice (log entry 4); the spec
says so only of the time after it. -/
def Obligations.StepKeepsTheOutputAndErrorForms : Prop :=
  ∀ s t : State, s.exclusive → s.heldInReset → s.block.outOk → s.block.errOk → step s = .next t →
    t.heldInReset ∧ t.block.outOk ∧ t.block.errOk

/-- 10_state.md sections 4 and 7: in every state a host with exclusive use reaches, `TR_VALID` says the
results are those of the digest the registers hold, and the results are always some digest's or the
reset values. -/
def Obligations.StepKeepsTruncValidMeaningCurrent : Prop :=
  ∀ s t : State, s.exclusive → s.block.truncOk → step s = .next t → t.block.truncOk

/-- 40_encoder.md section 4 and 41_decoder.md section 4 (counting laws the spec derives; log entry 15 on
saturation): every step of a host with exclusive use keeps them. -/
def Obligations.StepKeepsTheCountingLaws : Prop :=
  ∀ s t : State, s.exclusive → s.block.codecOk → s.block.countsOk → step s = .next t →
    t.block.countsOk

/-- 70_reset_and_hazards.md section 3: no output is ever lost: while output is unread, no step but a
reset or interleaved use changes `OUT`, and none but those and a read of `OUT` marks it read. -/
def Obligations.UnreadOutputIsNeverLost : Prop :=
  ∀ s t : State, step s = .next t → ¬s.nextResets → ¬s.nextInterleaved → s.block.outUnread = true →
    t.block.out = s.block.out ∧
      (t.block.outUnread = true ∨ s.nextAccess (hostRead .out))

/-- 10_state.md R22 (its last lines): only the five commands, hardware reset and interleaved use write
`MODE`. -/
def Obligations.OnlyFiveCommandsWriteMode : Prop :=
  ∀ s t : State, step s = .next t → t.block.mode ≠ s.block.mode →
    (∃ i ∈ [Instr.encStart, .encFlush, .decStart, .decEnd, .sreset],
      s.nextAccess (hostCommand i)) ∨
    s.pending.head? = some .assertReset ∨ s.nextInterleaved

/-- 10_state.md section 6: a counter never wraps: no step lowers one but a `START`, a reset or interleaved
use. -/
def Obligations.CountersNeverWrap : Prop :=
  ∀ s t : State, step s = .next t → ¬s.nextResets → ¬s.nextInterleaved →
    ¬s.nextAccess (hostCommand .encStart) → ¬s.nextAccess (hostCommand .decStart) →
    s.block.counters.input.toNat ≤ t.block.counters.input.toNat ∧
    s.block.counters.skip.toNat ≤ t.block.counters.skip.toNat ∧
    s.block.counters.output.toNat ≤ t.block.counters.output.toNat

/-- 42_truncation.md section 3 and 60_exceptions.md section 6: the frame of the codec commands: none
touches the digest, the truncation results, `TR_VALID` or `CTRL`, nor the host's side of the run. -/
def Obligations.CodecCommandsLeaveTheTruncationUnit : Prop :=
  ∀ (i : Instr) (s : State), isCodecCommand i = true → ∃ t, exec i s = .next t ∧
    t.block.digest = s.block.digest ∧ t.block.tr = s.block.tr ∧
    t.block.trValid = s.block.trValid ∧ t.block.strict = s.block.strict ∧
    t.pending = s.pending ∧ t.reads = s.reads ∧ t.inReset = s.inReset

/-! ### The streams -/

/-- 40_encoder.md section 4 (a law the spec derives): for every byte string and from every state with no
output unread, the `ENCODE` sequence refuses no command and the bytes its reads return are
`encode(b)`. -/
def Obligations.EncodeSequenceComputesEncode : Prop :=
  ∀ (b : List Byte) (s : State), s.inReset = false → s.block.outUnread = false →
    ∃ t ws, runProgram (encodeProgram b) s = .next t ∧
      t.reads = s.reads ++ ws ∧ ws.flatMap outBytes = encodeString b ∧
      t.pending = s.pending ∧ t.block.err = s.block.err ∧ t.block.mode = Mode.idle ∧
      t.block.outUnread = false

/-- 41_decoder.md section 4 (a law the spec derives): for every input string, in both settings of
`STRICT`, and from every state with no output unread, the `DECODE` sequence's reads return `decode(s)`;
it records `BADCHAR` only for an unknown character under `STRICT` and `EMPTY` only for an empty result,
and the counters end as the numbers of known and unknown characters. -/
def Obligations.DecodeSequenceComputesDecode : Prop :=
  ∀ (cs : List Byte) (s : State), s.inReset = false → s.block.outUnread = false →
    ∃ t ws, runProgram (decodeProgram cs) s = .next t ∧
      t.reads = s.reads ++ ws ∧ ws.flatMap outBytes = decodeString cs ∧
      t.pending = s.pending ∧ t.block.mode = Mode.idle ∧ t.block.outUnread = false ∧
      t.block.counters.input.toNat =
        min (cs.filter fun c => (lookup c).isSome).length Config.counterMax ∧
      t.block.counters.skip.toNat =
        min (cs.filter fun c => (lookup c).isNone).length Config.counterMax ∧
      t.block.err.illegal = s.block.err.illegal ∧ t.block.err.seq = s.block.err.seq ∧
      t.block.err.ovr = s.block.err.ovr ∧
      t.block.err.badchar =
        (s.block.err.badchar || (s.block.strict && cs.any fun c => (lookup c).isNone)) ∧
      t.block.err.empty = (s.block.err.empty || (decodeString cs).isEmpty)

/-- 40_encoder.md section 4 (a property the spec derives): decoding an encoded byte string gives it back,
for every byte string. -/
def Obligations.DecodeInvertsEncode : Prop :=
  ∀ b : List Byte, decodeString (encodeString b) = b

/-- 40_encoder.md section 2 and 41_decoder.md sections 2 and 4: the lengths of both functions' results,
and the spec's instances of strings that encoding does not give back. -/
def Obligations.StringLengthsAndNonInverses : Prop :=
  (∀ b : List Byte, (encodeString b).length = (8 * b.length + 4) / 5) ∧
  (∀ cs : List Byte,
    (decodeString cs).length = 5 * (cs.filter fun c => (lookup c).isSome).length / 8) ∧
  decodeString [0x41#8, 0x42#8] = [0x00#8] ∧ encodeString [0x00#8] = [0x41#8, 0x41#8] ∧
  decodeString [0x61#8, 0x62#8] = [0x00#8] ∧ decodeString [0x41#8] = []
end

