-- ==== Sys2Proof/Laws/State.lean ====
section
/-! SUPPORT. Each named update of the block and of the state, field by field, true by rfl, so that no
later proof unfolds a record update. -/

namespace Sys2Proof.Machine

@[simp] theorem Mode.enc_ne_idle : (Mode.enc = Mode.idle) = False := by decide
@[simp] theorem Mode.dec_ne_idle : (Mode.dec = Mode.idle) = False := by decide
@[simp] theorem Mode.idle_ne_enc : (Mode.idle = Mode.enc) = False := by decide
@[simp] theorem Mode.dec_ne_enc : (Mode.dec = Mode.enc) = False := by decide
@[simp] theorem Mode.idle_ne_dec : (Mode.idle = Mode.dec) = False := by decide
@[simp] theorem Mode.enc_ne_dec : (Mode.enc = Mode.dec) = False := by decide
@[simp] theorem Mode.idle_ne_three : (Mode.idle = 3#2) = False := by decide
@[simp] theorem Mode.enc_ne_three : (Mode.enc = 3#2) = False := by decide
@[simp] theorem Mode.dec_ne_three : (Mode.dec = 3#2) = False := by decide

section
variable (c : Cause) (b : Block)

@[simp] theorem Block.raise_strict : (b.raise c).strict = b.strict := rfl
@[simp] theorem Block.raise_mode : (b.raise c).mode = b.mode := rfl
@[simp] theorem Block.raise_outUnread : (b.raise c).outUnread = b.outUnread := rfl
@[simp] theorem Block.raise_trValid : (b.raise c).trValid = b.trValid := rfl
@[simp] theorem Block.raise_err : (b.raise c).err = recordError c b.err := rfl
@[simp] theorem Block.raise_out : (b.raise c).out = b.out := rfl
@[simp] theorem Block.raise_acc : (b.raise c).acc = b.acc := rfl
@[simp] theorem Block.raise_counters : (b.raise c).counters = b.counters := rfl
@[simp] theorem Block.raise_digest : (b.raise c).digest = b.digest := rfl
@[simp] theorem Block.raise_tr : (b.raise c).tr = b.tr := rfl

end

section
variable (v : Word) (b : Block)

@[simp] theorem Block.acknowledge_strict : (b.acknowledge v).strict = b.strict := rfl
@[simp] theorem Block.acknowledge_mode : (b.acknowledge v).mode = b.mode := rfl
@[simp] theorem Block.acknowledge_outUnread : (b.acknowledge v).outUnread = b.outUnread := rfl
@[simp] theorem Block.acknowledge_trValid : (b.acknowledge v).trValid = b.trValid := rfl
@[simp] theorem Block.acknowledge_err : (b.acknowledge v).err = acknowledgeErrors v b.err := rfl
@[simp] theorem Block.acknowledge_out : (b.acknowledge v).out = b.out := rfl
@[simp] theorem Block.acknowledge_acc : (b.acknowledge v).acc = b.acc := rfl
@[simp] theorem Block.acknowledge_counters : (b.acknowledge v).counters = b.counters := rfl
@[simp] theorem Block.acknowledge_digest : (b.acknowledge v).digest = b.digest := rfl
@[simp] theorem Block.acknowledge_tr : (b.acknowledge v).tr = b.tr := rfl

end

section
variable (a : Acc) (b : Block)

@[simp] theorem Block.setAcc_strict : (b.setAcc a).strict = b.strict := rfl
@[simp] theorem Block.setAcc_mode : (b.setAcc a).mode = b.mode := rfl
@[simp] theorem Block.setAcc_outUnread : (b.setAcc a).outUnread = b.outUnread := rfl
@[simp] theorem Block.setAcc_trValid : (b.setAcc a).trValid = b.trValid := rfl
@[simp] theorem Block.setAcc_err : (b.setAcc a).err = b.err := rfl
@[simp] theorem Block.setAcc_out : (b.setAcc a).out = b.out := rfl
@[simp] theorem Block.setAcc_acc : (b.setAcc a).acc = a := rfl
@[simp] theorem Block.setAcc_counters : (b.setAcc a).counters = b.counters := rfl
@[simp] theorem Block.setAcc_digest : (b.setAcc a).digest = b.digest := rfl
@[simp] theorem Block.setAcc_tr : (b.setAcc a).tr = b.tr := rfl

end

section
variable (x : Byte) (b : Block)

@[simp] theorem Block.emitOne_strict : (b.emitOne x).strict = b.strict := rfl
@[simp] theorem Block.emitOne_mode : (b.emitOne x).mode = b.mode := rfl
@[simp] theorem Block.emitOne_outUnread : (b.emitOne x).outUnread = true := rfl
@[simp] theorem Block.emitOne_trValid : (b.emitOne x).trValid = b.trValid := rfl
@[simp] theorem Block.emitOne_err : (b.emitOne x).err = b.err := rfl
@[simp] theorem Block.emitOne_out : (b.emitOne x).out = ⟨1#2, x, 0#8⟩ := rfl
@[simp] theorem Block.emitOne_acc : (b.emitOne x).acc = b.acc := rfl
@[simp] theorem Block.emitOne_counters : (b.emitOne x).counters = { b.counters with output := satInc b.counters.output 1 } := rfl
@[simp] theorem Block.emitOne_digest : (b.emitOne x).digest = b.digest := rfl
@[simp] theorem Block.emitOne_tr : (b.emitOne x).tr = b.tr := rfl

end

section
variable (x y : Byte) (b : Block)

@[simp] theorem Block.emitTwo_strict : (b.emitTwo x y).strict = b.strict := rfl
@[simp] theorem Block.emitTwo_mode : (b.emitTwo x y).mode = b.mode := rfl
@[simp] theorem Block.emitTwo_outUnread : (b.emitTwo x y).outUnread = true := rfl
@[simp] theorem Block.emitTwo_trValid : (b.emitTwo x y).trValid = b.trValid := rfl
@[simp] theorem Block.emitTwo_err : (b.emitTwo x y).err = b.err := rfl
@[simp] theorem Block.emitTwo_out : (b.emitTwo x y).out = ⟨2#2, x, y⟩ := rfl
@[simp] theorem Block.emitTwo_acc : (b.emitTwo x y).acc = b.acc := rfl
@[simp] theorem Block.emitTwo_counters : (b.emitTwo x y).counters = { b.counters with output := satInc b.counters.output 2 } := rfl
@[simp] theorem Block.emitTwo_digest : (b.emitTwo x y).digest = b.digest := rfl
@[simp] theorem Block.emitTwo_tr : (b.emitTwo x y).tr = b.tr := rfl

end

section
variable (b : Block)

@[simp] theorem Block.countInput_strict : (b.countInput).strict = b.strict := rfl
@[simp] theorem Block.countInput_mode : (b.countInput).mode = b.mode := rfl
@[simp] theorem Block.countInput_outUnread : (b.countInput).outUnread = b.outUnread := rfl
@[simp] theorem Block.countInput_trValid : (b.countInput).trValid = b.trValid := rfl
@[simp] theorem Block.countInput_err : (b.countInput).err = b.err := rfl
@[simp] theorem Block.countInput_out : (b.countInput).out = b.out := rfl
@[simp] theorem Block.countInput_acc : (b.countInput).acc = b.acc := rfl
@[simp] theorem Block.countInput_counters : (b.countInput).counters = { b.counters with input := satInc b.counters.input 1 } := rfl
@[simp] theorem Block.countInput_digest : (b.countInput).digest = b.digest := rfl
@[simp] theorem Block.countInput_tr : (b.countInput).tr = b.tr := rfl

end

section
variable (b : Block)

@[simp] theorem Block.countSkip_strict : (b.countSkip).strict = b.strict := rfl
@[simp] theorem Block.countSkip_mode : (b.countSkip).mode = b.mode := rfl
@[simp] theorem Block.countSkip_outUnread : (b.countSkip).outUnread = b.outUnread := rfl
@[simp] theorem Block.countSkip_trValid : (b.countSkip).trValid = b.trValid := rfl
@[simp] theorem Block.countSkip_err : (b.countSkip).err = b.err := rfl
@[simp] theorem Block.countSkip_out : (b.countSkip).out = b.out := rfl
@[simp] theorem Block.countSkip_acc : (b.countSkip).acc = b.acc := rfl
@[simp] theorem Block.countSkip_counters : (b.countSkip).counters = { b.counters with skip := satInc b.counters.skip 1 } := rfl
@[simp] theorem Block.countSkip_digest : (b.countSkip).digest = b.digest := rfl
@[simp] theorem Block.countSkip_tr : (b.countSkip).tr = b.tr := rfl

end

section
variable (m : Mode) (b : Block)

@[simp] theorem Block.startOp_strict : (b.startOp m).strict = b.strict := rfl
@[simp] theorem Block.startOp_mode : (b.startOp m).mode = m := rfl
@[simp] theorem Block.startOp_outUnread : (b.startOp m).outUnread = b.outUnread := rfl
@[simp] theorem Block.startOp_trValid : (b.startOp m).trValid = b.trValid := rfl
@[simp] theorem Block.startOp_err : (b.startOp m).err = b.err := rfl
@[simp] theorem Block.startOp_out : (b.startOp m).out = b.out := rfl
@[simp] theorem Block.startOp_acc : (b.startOp m).acc = ⟨0#12, 0#4⟩ := rfl
@[simp] theorem Block.startOp_counters : (b.startOp m).counters = ⟨0#32, 0#32, 0#32⟩ := rfl
@[simp] theorem Block.startOp_digest : (b.startOp m).digest = b.digest := rfl
@[simp] theorem Block.startOp_tr : (b.startOp m).tr = b.tr := rfl

end

section
variable (b : Block)

@[simp] theorem Block.endOp_strict : (b.endOp).strict = b.strict := rfl
@[simp] theorem Block.endOp_mode : (b.endOp).mode = Mode.idle := rfl
@[simp] theorem Block.endOp_outUnread : (b.endOp).outUnread = b.outUnread := rfl
@[simp] theorem Block.endOp_trValid : (b.endOp).trValid = b.trValid := rfl
@[simp] theorem Block.endOp_err : (b.endOp).err = b.err := rfl
@[simp] theorem Block.endOp_out : (b.endOp).out = b.out := rfl
@[simp] theorem Block.endOp_acc : (b.endOp).acc = ⟨0#12, 0#4⟩ := rfl
@[simp] theorem Block.endOp_counters : (b.endOp).counters = b.counters := rfl
@[simp] theorem Block.endOp_digest : (b.endOp).digest = b.digest := rfl
@[simp] theorem Block.endOp_tr : (b.endOp).tr = b.tr := rfl

end

section
variable (b : Block)

@[simp] theorem Block.takeOut_strict : (b.takeOut).strict = b.strict := rfl
@[simp] theorem Block.takeOut_mode : (b.takeOut).mode = b.mode := rfl
@[simp] theorem Block.takeOut_outUnread : (b.takeOut).outUnread = false := rfl
@[simp] theorem Block.takeOut_trValid : (b.takeOut).trValid = b.trValid := rfl
@[simp] theorem Block.takeOut_err : (b.takeOut).err = b.err := rfl
@[simp] theorem Block.takeOut_out : (b.takeOut).out = b.out := rfl
@[simp] theorem Block.takeOut_acc : (b.takeOut).acc = b.acc := rfl
@[simp] theorem Block.takeOut_counters : (b.takeOut).counters = b.counters := rfl
@[simp] theorem Block.takeOut_digest : (b.takeOut).digest = b.digest := rfl
@[simp] theorem Block.takeOut_tr : (b.takeOut).tr = b.tr := rfl

end

section
variable (v : Word) (b : Block)

@[simp] theorem Block.setCtrl_strict : (b.setCtrl v).strict = v.getLsbD 0 := rfl
@[simp] theorem Block.setCtrl_mode : (b.setCtrl v).mode = b.mode := rfl
@[simp] theorem Block.setCtrl_outUnread : (b.setCtrl v).outUnread = b.outUnread := rfl
@[simp] theorem Block.setCtrl_trValid : (b.setCtrl v).trValid = b.trValid := rfl
@[simp] theorem Block.setCtrl_err : (b.setCtrl v).err = b.err := rfl
@[simp] theorem Block.setCtrl_out : (b.setCtrl v).out = b.out := rfl
@[simp] theorem Block.setCtrl_acc : (b.setCtrl v).acc = b.acc := rfl
@[simp] theorem Block.setCtrl_counters : (b.setCtrl v).counters = b.counters := rfl
@[simp] theorem Block.setCtrl_digest : (b.setCtrl v).digest = b.digest := rfl
@[simp] theorem Block.setCtrl_tr : (b.setCtrl v).tr = b.tr := rfl

end

section
variable (d : Digest) (b : Block)

@[simp] theorem Block.setDigest_strict : (b.setDigest d).strict = b.strict := rfl
@[simp] theorem Block.setDigest_mode : (b.setDigest d).mode = b.mode := rfl
@[simp] theorem Block.setDigest_outUnread : (b.setDigest d).outUnread = b.outUnread := rfl
@[simp] theorem Block.setDigest_trValid : (b.setDigest d).trValid = false := rfl
@[simp] theorem Block.setDigest_err : (b.setDigest d).err = b.err := rfl
@[simp] theorem Block.setDigest_out : (b.setDigest d).out = b.out := rfl
@[simp] theorem Block.setDigest_acc : (b.setDigest d).acc = b.acc := rfl
@[simp] theorem Block.setDigest_counters : (b.setDigest d).counters = b.counters := rfl
@[simp] theorem Block.setDigest_digest : (b.setDigest d).digest = d := rfl
@[simp] theorem Block.setDigest_tr : (b.setDigest d).tr = b.tr := rfl

end

section
variable (r : TruncResult) (b : Block)

@[simp] theorem Block.setTrunc_strict : (b.setTrunc r).strict = b.strict := rfl
@[simp] theorem Block.setTrunc_mode : (b.setTrunc r).mode = b.mode := rfl
@[simp] theorem Block.setTrunc_outUnread : (b.setTrunc r).outUnread = b.outUnread := rfl
@[simp] theorem Block.setTrunc_trValid : (b.setTrunc r).trValid = true := rfl
@[simp] theorem Block.setTrunc_err : (b.setTrunc r).err = b.err := rfl
@[simp] theorem Block.setTrunc_out : (b.setTrunc r).out = b.out := rfl
@[simp] theorem Block.setTrunc_acc : (b.setTrunc r).acc = b.acc := rfl
@[simp] theorem Block.setTrunc_counters : (b.setTrunc r).counters = b.counters := rfl
@[simp] theorem Block.setTrunc_digest : (b.setTrunc r).digest = b.digest := rfl
@[simp] theorem Block.setTrunc_tr : (b.setTrunc r).tr = r := rfl

end

section
variable (b : Block) (s : State)

@[simp] theorem State.setBlock_block : (s.setBlock b).block = b := rfl
@[simp] theorem State.setBlock_pending : (s.setBlock b).pending = s.pending := rfl
@[simp] theorem State.setBlock_reads : (s.setBlock b).reads = s.reads := rfl
@[simp] theorem State.setBlock_inReset : (s.setBlock b).inReset = s.inReset := rfl
@[simp] theorem State.setBlock_freeIdx : (s.setBlock b).freeIdx = s.freeIdx := rfl

end

section
variable (es : List Event) (s : State)

@[simp] theorem State.setPending_block : (s.setPending es).block = s.block := rfl
@[simp] theorem State.setPending_pending : (s.setPending es).pending = es := rfl
@[simp] theorem State.setPending_reads : (s.setPending es).reads = s.reads := rfl
@[simp] theorem State.setPending_inReset : (s.setPending es).inReset = s.inReset := rfl
@[simp] theorem State.setPending_freeIdx : (s.setPending es).freeIdx = s.freeIdx := rfl

end

section
variable (v : Word) (s : State)

@[simp] theorem State.pushRead_block : (s.pushRead v).block = s.block := rfl
@[simp] theorem State.pushRead_pending : (s.pushRead v).pending = s.pending := rfl
@[simp] theorem State.pushRead_reads : (s.pushRead v).reads = s.reads ++ [v] := rfl
@[simp] theorem State.pushRead_inReset : (s.pushRead v).inReset = s.inReset := rfl
@[simp] theorem State.pushRead_freeIdx : (s.pushRead v).freeIdx = s.freeIdx := rfl

end

section
variable (r : Bool) (s : State)

@[simp] theorem State.setInReset_block : (s.setInReset r).block = s.block := rfl
@[simp] theorem State.setInReset_pending : (s.setInReset r).pending = s.pending := rfl
@[simp] theorem State.setInReset_reads : (s.setInReset r).reads = s.reads := rfl
@[simp] theorem State.setInReset_inReset : (s.setInReset r).inReset = r := rfl
@[simp] theorem State.setInReset_freeIdx : (s.setInReset r).freeIdx = s.freeIdx := rfl

end

section
variable (k : Nat) (s : State)

@[simp] theorem State.advanceFree_block : (s.advanceFree k).block = s.block := rfl
@[simp] theorem State.advanceFree_pending : (s.advanceFree k).pending = s.pending := rfl
@[simp] theorem State.advanceFree_reads : (s.advanceFree k).reads = s.reads := rfl
@[simp] theorem State.advanceFree_inReset : (s.advanceFree k).inReset = s.inReset := rfl
@[simp] theorem State.advanceFree_freeIdx : (s.advanceFree k).freeIdx = s.freeIdx + k := rfl

end

section
variable (c : Cause) (s : State)

@[simp] theorem State.raise_block : (s.raise c).block = s.block.raise c := rfl
@[simp] theorem State.raise_pending : (s.raise c).pending = s.pending := rfl
@[simp] theorem State.raise_reads : (s.raise c).reads = s.reads := rfl
@[simp] theorem State.raise_inReset : (s.raise c).inReset = s.inReset := rfl
@[simp] theorem State.raise_freeIdx : (s.raise c).freeIdx = s.freeIdx := rfl

end

section
variable (p : List Access) (s : State)

@[simp] theorem State.withProgram_block : (s.withProgram p).block = s.block := rfl
@[simp] theorem State.withProgram_pending : (s.withProgram p).pending = p.map Event.access ++ s.pending := rfl
@[simp] theorem State.withProgram_reads : (s.withProgram p).reads = s.reads := rfl
@[simp] theorem State.withProgram_inReset : (s.withProgram p).inReset = s.inReset := rfl
@[simp] theorem State.withProgram_freeIdx : (s.withProgram p).freeIdx = s.freeIdx := rfl

end

end Sys2Proof.Machine
end

