-- ==== Sys2Proof/Laws/Words.lean ====
section
/-! SUPPORT. The shared operations over words as arithmetic of naturals: what each of them computes, said
once (10_state.md R30, R33; 40_encoder.md R103; 41_decoder.md R123). -/

namespace Sys2Proof.Machine

theorem satInc_toNat (c : Word) (k : Nat) :
    (satInc c k).toNat = min (c.toNat + k) Config.counterMax := by
  simp only [satInc, BitVec.toNat_ofNat, Config.counterMax]
  omega

theorem le_satInc (c : Word) (k : Nat) : c.toNat ≤ (satInc c k).toNat := by
  have := c.isLt
  rw [satInc_toNat, Config.counterMax]
  omega

/-- A counter that has counted something is never 0 again (10_state.md R33). -/
theorem satInc_ne_zero (c : Word) (k : Nat) (hk : 0 < k) : satInc c k ≠ 0#32 := by
  intro h
  have := congrArg BitVec.toNat h
  rw [satInc_toNat, Config.counterMax] at this
  simp only [BitVec.toNat_ofNat] at this
  omega

/-- `{a, b}` as a number (00_scope.md R8). -/
theorem append_toNat {m n : Nat} (a : BitVec m) (b : BitVec n) :
    (a ++ b).toNat = a.toNat * 2 ^ n + b.toNat := by
  rw [BitVec.toNat_append, ← Nat.shiftLeft_add_eq_or_of_lt b.isLt, Nat.shiftLeft_eq]

theorem joinByte_toNat (a : Acc) (b : Byte) :
    (a.joinByte b).toNat = a.buf.toNat * 2 ^ 8 + b.toNat := append_toNat _ _

theorem joinGroup_toNat (a : Acc) (x : Group) :
    (a.joinGroup x).toNat = a.buf.toNat * 2 ^ 5 + x.toNat := append_toNat _ _

theorem groupAt_eq (v n : Nat) : groupAt v n = BitVec.ofNat 5 (v / 2 ^ n % 2 ^ 5) := by
  apply BitVec.eq_of_toNat_eq
  simp [groupAt, Nat.shiftRight_eq_div_pow]

theorem byteAt_eq (v n : Nat) : byteAt v n = BitVec.ofNat 8 (v / 2 ^ n % 2 ^ 8) := by
  apply BitVec.eq_of_toNat_eq
  simp [byteAt, Nat.shiftRight_eq_div_pow]

theorem flushGroup_of_le (a : Acc) (free : Group) (h : a.cnt.toNat ≤ 5) :
    flushGroup a free = BitVec.ofNat 5 (a.buf.toNat * 2 ^ (5 - a.cnt.toNat) % 2 ^ 5) := by
  apply BitVec.eq_of_toNat_eq
  simp [flushGroup, h, Nat.shiftLeft_eq]

theorem flushFree_of_le (a : Acc) (h : a.cnt.toNat ≤ 5) : flushFree a = 0 := by simp [flushFree, h]

theorem keepBits_cnt_toNat (v n : Nat) (h : n < 16) : (keepBits v n).cnt.toNat = n := by
  simp [keepBits, Nat.mod_eq_of_lt h]

/-- With at most 12 bits kept nothing is narrowed away (10_state.md R30). -/
theorem keepBits_buf_toNat (v n : Nat) (h : n ≤ 12) : (keepBits v n).buf.toNat = v % 2 ^ n := by
  have h1 : v % 2 ^ n < 2 ^ n := Nat.mod_lt _ (Nat.two_pow_pos n)
  have h2 : 2 ^ n ≤ 2 ^ 12 := Nat.pow_le_pow_right (by decide) h
  simp only [keepBits, BitVec.toNat_ofNat]
  exact Nat.mod_eq_of_lt (by omega)

/-- The kept bits always fit their count (10_state.md R30). -/
theorem keepBits_buf_lt (v n : Nat) (h : n < 16) :
    (keepBits v n).buf.toNat < 2 ^ (keepBits v n).cnt.toNat := by
  rw [keepBits_cnt_toNat v n h]
  simp only [keepBits, BitVec.toNat_ofNat]
  exact lt_of_le_of_lt (Nat.mod_le _ _) (Nat.mod_lt _ (Nat.two_pow_pos n))

/-- The character map undoes the alphabet (41_decoder.md R120), one group at a time. -/
theorem alphabet_isSome (g : Group) : (lookup (alphabet g)).isSome = true := by
  revert g; decide

end Sys2Proof.Machine
end

