-- ==== Sys2Proof/Laws/Exec.lean ====
section
/-! SUPPORT. What each command can do, said once: the block it leaves, as one of a few named cases.
Every command answers a next state (60_exceptions.md R170), so each lemma is an equation or a choice of
equations. -/

namespace Sys2Proof.Machine

/-! The block each accepted command leaves, field by field. -/

section
variable (b : Byte) (blk : Block)

@[simp] theorem encodeByte_strict : (encodeByte b blk).strict = blk.strict := by
  unfold encodeByte; dsimp only; split <;> rfl

@[simp] theorem encodeByte_mode : (encodeByte b blk).mode = blk.mode := by
  unfold encodeByte; dsimp only; split <;> rfl

@[simp] theorem encodeByte_trValid : (encodeByte b blk).trValid = blk.trValid := by
  unfold encodeByte; dsimp only; split <;> rfl

@[simp] theorem encodeByte_err : (encodeByte b blk).err = blk.err := by
  unfold encodeByte; dsimp only; split <;> rfl

@[simp] theorem encodeByte_digest : (encodeByte b blk).digest = blk.digest := by
  unfold encodeByte; dsimp only; split <;> rfl

@[simp] theorem encodeByte_tr : (encodeByte b blk).tr = blk.tr := by
  unfold encodeByte; dsimp only; split <;> rfl

@[simp] theorem encodeByte_counters_skip : (encodeByte b blk).counters.skip = blk.counters.skip := by
  unfold encodeByte; dsimp only; split <;> rfl

@[simp] theorem encodeByte_outUnread : (encodeByte b blk).outUnread = true := by
  unfold encodeByte; dsimp only; split <;> rfl

@[simp] theorem encodeByte_counters_input : (encodeByte b blk).counters.input = satInc blk.counters.input 1 := by
  unfold encodeByte; dsimp only; split <;> rfl

end

section
variable (g : Group) (blk : Block)

@[simp] theorem flushPending_strict : (flushPending g blk).strict = blk.strict := by
  rfl

@[simp] theorem flushPending_trValid : (flushPending g blk).trValid = blk.trValid := by
  rfl

@[simp] theorem flushPending_err : (flushPending g blk).err = blk.err := by
  rfl

@[simp] theorem flushPending_digest : (flushPending g blk).digest = blk.digest := by
  rfl

@[simp] theorem flushPending_tr : (flushPending g blk).tr = blk.tr := by
  rfl

@[simp] theorem flushPending_counters_input : (flushPending g blk).counters.input = blk.counters.input := by
  rfl

@[simp] theorem flushPending_counters_skip : (flushPending g blk).counters.skip = blk.counters.skip := by
  rfl

@[simp] theorem flushPending_mode : (flushPending g blk).mode = Mode.idle := by
  rfl

@[simp] theorem flushPending_outUnread : (flushPending g blk).outUnread = true := by
  rfl

@[simp] theorem flushPending_acc : (flushPending g blk).acc = ⟨0#12, 0#4⟩ := by
  rfl

@[simp] theorem flushPending_out : (flushPending g blk).out = ⟨1#2, alphabet (flushGroup blk.acc g), 0#8⟩ := by
  rfl

@[simp] theorem flushPending_counters_output : (flushPending g blk).counters.output = satInc blk.counters.output 1 := by
  rfl

end

section
variable (blk : Block)

@[simp] theorem skipChar_strict : (skipChar blk).strict = blk.strict := by
  unfold skipChar; split <;> rfl

@[simp] theorem skipChar_mode : (skipChar blk).mode = blk.mode := by
  unfold skipChar; split <;> rfl

@[simp] theorem skipChar_outUnread : (skipChar blk).outUnread = blk.outUnread := by
  unfold skipChar; split <;> rfl

@[simp] theorem skipChar_trValid : (skipChar blk).trValid = blk.trValid := by
  unfold skipChar; split <;> rfl

@[simp] theorem skipChar_out : (skipChar blk).out = blk.out := by
  unfold skipChar; split <;> rfl

@[simp] theorem skipChar_acc : (skipChar blk).acc = blk.acc := by
  unfold skipChar; split <;> rfl

@[simp] theorem skipChar_digest : (skipChar blk).digest = blk.digest := by
  unfold skipChar; split <;> rfl

@[simp] theorem skipChar_tr : (skipChar blk).tr = blk.tr := by
  unfold skipChar; split <;> rfl

@[simp] theorem skipChar_counters_input : (skipChar blk).counters.input = blk.counters.input := by
  unfold skipChar; split <;> rfl

@[simp] theorem skipChar_counters_output : (skipChar blk).counters.output = blk.counters.output := by
  unfold skipChar; split <;> rfl

@[simp] theorem skipChar_counters_skip : (skipChar blk).counters.skip = satInc blk.counters.skip 1 := by
  unfold skipChar; split <;> rfl

@[simp] theorem skipChar_err : (skipChar blk).err = if blk.strict then recordError .badchar blk.err else blk.err := by
  unfold skipChar; split <;> rfl

end

section
variable (x : Group) (blk : Block)

@[simp] theorem decodeGroup_strict : (decodeGroup x blk).strict = blk.strict := by
  unfold decodeGroup; dsimp only; split <;> rfl

@[simp] theorem decodeGroup_mode : (decodeGroup x blk).mode = blk.mode := by
  unfold decodeGroup; dsimp only; split <;> rfl

@[simp] theorem decodeGroup_trValid : (decodeGroup x blk).trValid = blk.trValid := by
  unfold decodeGroup; dsimp only; split <;> rfl

@[simp] theorem decodeGroup_err : (decodeGroup x blk).err = blk.err := by
  unfold decodeGroup; dsimp only; split <;> rfl

@[simp] theorem decodeGroup_digest : (decodeGroup x blk).digest = blk.digest := by
  unfold decodeGroup; dsimp only; split <;> rfl

@[simp] theorem decodeGroup_tr : (decodeGroup x blk).tr = blk.tr := by
  unfold decodeGroup; dsimp only; split <;> rfl

@[simp] theorem decodeGroup_counters_skip : (decodeGroup x blk).counters.skip = blk.counters.skip := by
  unfold decodeGroup; dsimp only; split <;> rfl

@[simp] theorem decodeGroup_counters_input : (decodeGroup x blk).counters.input = satInc blk.counters.input 1 := by
  unfold decodeGroup; dsimp only; split <;> rfl

end

section
variable (blk : Block)

@[simp] theorem endDecode_strict : (endDecode blk).strict = blk.strict := by
  unfold endDecode; split <;> rfl

@[simp] theorem endDecode_outUnread : (endDecode blk).outUnread = blk.outUnread := by
  unfold endDecode; split <;> rfl

@[simp] theorem endDecode_trValid : (endDecode blk).trValid = blk.trValid := by
  unfold endDecode; split <;> rfl

@[simp] theorem endDecode_out : (endDecode blk).out = blk.out := by
  unfold endDecode; split <;> rfl

@[simp] theorem endDecode_counters : (endDecode blk).counters = blk.counters := by
  unfold endDecode; split <;> rfl

@[simp] theorem endDecode_digest : (endDecode blk).digest = blk.digest := by
  unfold endDecode; split <;> rfl

@[simp] theorem endDecode_tr : (endDecode blk).tr = blk.tr := by
  unfold endDecode; split <;> rfl

@[simp] theorem endDecode_mode : (endDecode blk).mode = Mode.idle := by
  unfold endDecode; split <;> rfl

@[simp] theorem endDecode_acc : (endDecode blk).acc = ⟨0#12, 0#4⟩ := by
  unfold endDecode; split <;> rfl

@[simp] theorem endDecode_err : (endDecode blk).err = if blk.counters.output = 0#32 then recordError .empty blk.err else blk.err := by
  unfold endDecode; split <;> rfl

end

/-! The two shapes an accepted input takes, by how many bits were pending (the corner-case tables of
40_encoder.md R103 and 41_decoder.md R123). -/

theorem encodeByte_of_lt (b : Byte) (blk : Block) (h : blk.acc.cnt.toNat < 2) :
    encodeByte b blk =
      ((blk.emitOne (alphabet (groupAt (blk.acc.joinByte b).toNat (blk.acc.cnt.toNat + 3)))).setAcc
        (keepBits (blk.acc.joinByte b).toNat (blk.acc.cnt.toNat + 3))).countInput := by
  unfold encodeByte; dsimp only; rw [if_neg (by omega)]; rfl

theorem encodeByte_of_le (b : Byte) (blk : Block) (h : 2 ≤ blk.acc.cnt.toNat) :
    encodeByte b blk =
      ((blk.emitTwo (alphabet (groupAt (blk.acc.joinByte b).toNat (blk.acc.cnt.toNat + 3)))
        (alphabet (groupAt (blk.acc.joinByte b).toNat (blk.acc.cnt.toNat - 2)))).setAcc
        (keepBits (blk.acc.joinByte b).toNat (blk.acc.cnt.toNat - 2))).countInput := by
  unfold encodeByte; dsimp only
  rw [if_pos (by omega), show blk.acc.cnt.toNat + 8 - 10 = blk.acc.cnt.toNat - 2 by omega]; rfl

theorem decodeGroup_of_lt (x : Group) (blk : Block) (h : blk.acc.cnt.toNat < 3) :
    decodeGroup x blk =
      blk.countInput.setAcc (keepBits (blk.acc.joinGroup x).toNat (blk.acc.cnt.toNat + 5)) := by
  unfold decodeGroup; dsimp only; rw [if_neg (by omega)]

theorem decodeGroup_of_le (x : Group) (blk : Block) (h : 3 ≤ blk.acc.cnt.toNat) :
    decodeGroup x blk =
      (blk.countInput.emitOne
        (byteAt (blk.acc.joinGroup x).toNat (blk.acc.cnt.toNat - 3))).setAcc
        (keepBits (blk.acc.joinGroup x).toNat (blk.acc.cnt.toNat - 3)) := by
  unfold decodeGroup; dsimp only
  rw [if_pos (by omega), show blk.acc.cnt.toNat + 5 - 8 = blk.acc.cnt.toNat - 3 by omega]

/-! The commands. -/

@[simp] theorem exec_nop (s : State) : exec .nop s = .next s := rfl

@[simp] theorem exec_encStart (s : State) :
    exec .encStart s = .next (s.setBlock (s.block.startOp Mode.enc)) := rfl

@[simp] theorem exec_decStart (s : State) :
    exec .decStart s = .next (s.setBlock (s.block.startOp Mode.dec)) := rfl

@[simp] theorem exec_trunc (s : State) :
    exec .trunc s = .next (s.setBlock (s.block.setTrunc (truncate s.block.digest))) := rfl

@[simp] theorem exec_sreset (s : State) : exec .sreset s = .next (s.setBlock Block.reset) := rfl

/-- `ENC_BYTE` (40_encoder.md R103): refused with `SEQ`, refused with `OVR`, or accepted. -/
theorem exec_encByte_cases (b : Byte) (s : State) :
    (s.block.mode ≠ Mode.enc ∧ exec (.encByte b) s = .next (s.raise .seq)) ∨
    (s.block.mode = Mode.enc ∧ s.block.outUnread = true ∧
      exec (.encByte b) s = .next (s.raise .ovr)) ∨
    (s.block.mode = Mode.enc ∧ s.block.outUnread = false ∧
      exec (.encByte b) s = .next (s.setBlock (encodeByte b s.block))) := by
  by_cases hm : s.block.mode = Mode.enc
  · cases hu : s.block.outUnread <;> simp [exec, execEncByte, refuse, hm, hu]
  · exact .inl ⟨hm, by simp [exec, execEncByte, refuse, hm]⟩

/-- `ENC_FLUSH` (40_encoder.md R104): refused with `SEQ`, ended with nothing pending, refused with
`OVR`, or the padded group emitted. -/
theorem exec_encFlush_cases (s : State) :
    (s.block.mode ≠ Mode.enc ∧ exec .encFlush s = .next (s.raise .seq)) ∨
    (s.block.mode = Mode.enc ∧ s.block.acc.cnt = 0#4 ∧
      exec .encFlush s = .next (s.setBlock s.block.endOp)) ∨
    (s.block.mode = Mode.enc ∧ s.block.acc.cnt ≠ 0#4 ∧ s.block.outUnread = true ∧
      exec .encFlush s = .next (s.raise .ovr)) ∨
    (s.block.mode = Mode.enc ∧ s.block.acc.cnt ≠ 0#4 ∧ s.block.outUnread = false ∧
      exec .encFlush s = .next ((s.setBlock
        (flushPending (Config.freeValue 5 s.freeIdx) s.block)).advanceFree
        (flushFree s.block.acc))) := by
  by_cases hm : s.block.mode = Mode.enc
  · by_cases hc : s.block.acc.cnt = 0#4
    · exact .inr (.inl ⟨hm, hc, by simp [exec, execEncFlush, hm, hc]⟩)
    · cases hu : s.block.outUnread <;> simp [exec, execEncFlush, refuse, hm, hc, hu]
  · exact .inl ⟨hm, by simp [exec, execEncFlush, refuse, hm]⟩

/-- `DEC_CHAR` (41_decoder.md R123): refused with `SEQ`, skipped, refused with `OVR`, or accepted. -/
theorem exec_decChar_cases (c : Byte) (s : State) :
    (s.block.mode ≠ Mode.dec ∧ exec (.decChar c) s = .next (s.raise .seq)) ∨
    (s.block.mode = Mode.dec ∧ lookup c = none ∧
      exec (.decChar c) s = .next (s.setBlock (skipChar s.block))) ∨
    (∃ x, s.block.mode = Mode.dec ∧ lookup c = some x ∧ 3 ≤ s.block.acc.cnt.toNat ∧
      s.block.outUnread = true ∧ exec (.decChar c) s = .next (s.raise .ovr)) ∨
    (∃ x, s.block.mode = Mode.dec ∧ lookup c = some x ∧
      ¬(3 ≤ s.block.acc.cnt.toNat ∧ s.block.outUnread = true) ∧
      exec (.decChar c) s = .next (s.setBlock (decodeGroup x s.block))) := by
  by_cases hm : s.block.mode = Mode.dec
  · cases hl : lookup c with
    | none => exact .inr (.inl ⟨hm, rfl, by simp [exec, execDecChar, hm, hl]⟩)
    | some x =>
      by_cases hu : 3 ≤ s.block.acc.cnt.toNat ∧ s.block.outUnread = true
      · exact .inr (.inr (.inl ⟨x, hm, rfl, hu.1, hu.2, by simp [exec, execDecChar, refuse, hm, hl, hu]⟩))
      · refine .inr (.inr (.inr ⟨x, hm, rfl, hu, ?_⟩))
        simp only [exec, execDecChar, hm, hl, ne_eq, not_true_eq_false, if_false, if_neg hu]
  · exact .inl ⟨hm, by simp [exec, execDecChar, refuse, hm]⟩

/-- `DEC_END` (41_decoder.md R124): refused with `SEQ`, or ended. -/
theorem exec_decEnd_cases (s : State) :
    (s.block.mode ≠ Mode.dec ∧ exec .decEnd s = .next (s.raise .seq)) ∨
    (s.block.mode = Mode.dec ∧ exec .decEnd s = .next (s.setBlock (endDecode s.block))) := by
  by_cases hm : s.block.mode = Mode.dec
  · exact .inr ⟨hm, by simp [exec, execDecEnd, hm]⟩
  · exact .inl ⟨hm, by simp [exec, execDecEnd, refuse, hm]⟩

/-- What a command does to the block, with no state around it: the one list every whole-machine claim
goes through (30_encoding.md R87; 60_exceptions.md R173). -/
inductive CommandEffect (i : Instr) (b b' : Block) : Prop where
  | unchanged (h : i = .nop) (hb : b' = b)
  | refused (c : Cause) (hc : c = .seq ∨ c = .ovr) (h : neededMode i ≠ none) (hb : b' = b.raise c)
  | started (m : Mode) (h : i = .encStart ∧ m = Mode.enc ∨ i = .decStart ∧ m = Mode.dec)
      (hb : b' = b.startOp m)
  | encoded (x : Byte) (h : i = .encByte x) (hm : b.mode = Mode.enc) (hu : b.outUnread = false)
      (hb : b' = encodeByte x b)
  | flushedEmpty (h : i = .encFlush) (hm : b.mode = Mode.enc) (hc : b.acc.cnt = 0#4)
      (hb : b' = b.endOp)
  | flushed (g : Group) (h : i = .encFlush) (hm : b.mode = Mode.enc) (hc : b.acc.cnt ≠ 0#4)
      (hu : b.outUnread = false) (hb : b' = flushPending g b)
  | skipped (c : Byte) (h : i = .decChar c) (hm : b.mode = Mode.dec) (hl : lookup c = none)
      (hb : b' = skipChar b)
  | decoded (c : Byte) (x : Group) (h : i = .decChar c) (hm : b.mode = Mode.dec)
      (hl : lookup c = some x) (hu : ¬(3 ≤ b.acc.cnt.toNat ∧ b.outUnread = true))
      (hb : b' = decodeGroup x b)
  | ended (h : i = .decEnd) (hm : b.mode = Mode.dec) (hb : b' = endDecode b)
  | truncated (h : i = .trunc) (hb : b' = b.setTrunc (truncate b.digest))
  | reset (h : i = .sreset) (hb : b' = Block.reset)

/-- Every command answers a next state with one of the effects above; the environment's side is left
but for the index of the free values. -/
theorem exec_effect (i : Instr) (s : State) :
    ∃ t, exec i s = .next t ∧ CommandEffect i s.block t.block ∧ t.pending = s.pending ∧
      t.reads = s.reads ∧ t.inReset = s.inReset := by
  cases i with
  | nop => exact ⟨s, rfl, .unchanged rfl rfl, rfl, rfl, rfl⟩
  | encStart => exact ⟨_, rfl, .started _ (.inl ⟨rfl, rfl⟩) rfl, rfl, rfl, rfl⟩
  | decStart => exact ⟨_, rfl, .started _ (.inr ⟨rfl, rfl⟩) rfl, rfl, rfl, rfl⟩
  | trunc => exact ⟨_, rfl, .truncated rfl rfl, rfl, rfl, rfl⟩
  | sreset => exact ⟨_, rfl, .reset rfl rfl, rfl, rfl, rfl⟩
  | encByte b =>
    rcases exec_encByte_cases b s with ⟨_, h⟩ | ⟨_, _, h⟩ | ⟨hm, hu, h⟩
    · exact ⟨_, h, .refused .seq (.inl rfl) nofun rfl, rfl, rfl, rfl⟩
    · exact ⟨_, h, .refused .ovr (.inr rfl) nofun rfl, rfl, rfl, rfl⟩
    · exact ⟨_, h, .encoded b rfl hm hu rfl, rfl, rfl, rfl⟩
  | encFlush =>
    rcases exec_encFlush_cases s with ⟨_, h⟩ | ⟨hm, hc, h⟩ | ⟨_, _, _, h⟩ | ⟨hm, hc, hu, h⟩
    · exact ⟨_, h, .refused .seq (.inl rfl) nofun rfl, rfl, rfl, rfl⟩
    · exact ⟨_, h, .flushedEmpty rfl hm hc rfl, rfl, rfl, rfl⟩
    · exact ⟨_, h, .refused .ovr (.inr rfl) nofun rfl, rfl, rfl, rfl⟩
    · exact ⟨_, h, .flushed _ rfl hm hc hu rfl, rfl, rfl, rfl⟩
  | decChar c =>
    rcases exec_decChar_cases c s with
      ⟨_, h⟩ | ⟨hm, hl, h⟩ | ⟨x, _, _, _, _, h⟩ | ⟨x, hm, hl, hu, h⟩
    · exact ⟨_, h, .refused .seq (.inl rfl) nofun rfl, rfl, rfl, rfl⟩
    · exact ⟨_, h, .skipped c rfl hm hl rfl, rfl, rfl, rfl⟩
    · exact ⟨_, h, .refused .ovr (.inr rfl) nofun rfl, rfl, rfl, rfl⟩
    · exact ⟨_, h, .decoded c x rfl hm hl hu rfl, rfl, rfl, rfl⟩
  | decEnd =>
    rcases exec_decEnd_cases s with ⟨_, h⟩ | ⟨hm, h⟩
    · exact ⟨_, h, .refused .seq (.inl rfl) nofun rfl, rfl, rfl, rfl⟩
    · exact ⟨_, h, .ended rfl hm rfl, rfl, rfl, rfl⟩

end Sys2Proof.Machine
end

