-- ==== Sys2Proof/Laws/PerInstr.lean ====
section
/-! SUPPORT. The word of every command is a legal word with `RSV` zero (30_encoding.md R80, R84, R88),
one lemma per command. -/

namespace Sys2Proof.Laws.LegalEncoding

/-- The word of a command is legal, holds 0 in `RSV`, and holds 0 in `DATA` unless its opcode takes an
operand (30_encoding.md R84). -/
def Statement (i : Instr) : Prop :=
  legalWord (encode i) = true ∧ rsvField (encode i) = 0#20 ∧
    (opcTakesData (opcField (encode i)) = false → dataField (encode i) = 0#8)

/-- The F1 word as a number (30_encoding.md R80). -/
theorem encodeFields_toNat (opc : BitVec 4) (data : Byte) :
    (encodeFields opc data).toNat = opc.toNat * 2 ^ 28 + data.toNat := by
  simp only [encodeFields, Machine.append_toNat, BitVec.toNat_ofNat]
  omega

theorem opcField_encodeFields (opc : BitVec 4) (data : Byte) :
    opcField (encodeFields opc data) = opc := by
  have := opc.isLt; have := data.isLt
  apply BitVec.eq_of_toNat_eq
  rw [BitVec.extractLsb'_toNat, encodeFields_toNat, Nat.shiftRight_eq_div_pow]
  omega

theorem rsvField_encodeFields (opc : BitVec 4) (data : Byte) :
    rsvField (encodeFields opc data) = 0#20 := by
  have := opc.isLt; have := data.isLt
  apply BitVec.eq_of_toNat_eq
  rw [BitVec.extractLsb'_toNat, encodeFields_toNat, Nat.shiftRight_eq_div_pow, BitVec.toNat_ofNat]
  omega

theorem dataField_encodeFields (opc : BitVec 4) (data : Byte) :
    dataField (encodeFields opc data) = data := by
  have := opc.isLt; have := data.isLt
  apply BitVec.eq_of_toNat_eq
  rw [BitVec.extractLsb'_toNat, encodeFields_toNat, Nat.shiftRight_eq_div_pow]
  omega

/-- Every F1 word whose opcode is assigned, with an operand only where one is taken, is legal. -/
theorem of_encodeFields (i : Instr) (opc : BitVec 4) (data : Byte) (hi : encode i = encodeFields opc data)
    (ho : opcAssigned opc = true) (hd : opcTakesData opc = true ∨ data = 0#8) : Statement i := by
  unfold Statement legalWord
  rw [hi, opcField_encodeFields, rsvField_encodeFields, dataField_encodeFields, ho]
  rcases hd with h | h <;> simp [h]

theorem nop : Statement .nop := of_encodeFields _ 0x0#4 0#8 rfl rfl (.inr rfl)

theorem encStart : Statement .encStart := of_encodeFields _ 0x1#4 0#8 rfl rfl (.inr rfl)

theorem encByte (b : Byte) : Statement (.encByte b) := of_encodeFields _ 0x2#4 b rfl rfl (.inl rfl)

theorem encFlush : Statement .encFlush := of_encodeFields _ 0x3#4 0#8 rfl rfl (.inr rfl)

theorem decStart : Statement .decStart := of_encodeFields _ 0x4#4 0#8 rfl rfl (.inr rfl)

theorem decChar (c : Byte) : Statement (.decChar c) := of_encodeFields _ 0x5#4 c rfl rfl (.inl rfl)

theorem decEnd : Statement .decEnd := of_encodeFields _ 0x6#4 0#8 rfl rfl (.inr rfl)

theorem trunc : Statement .trunc := of_encodeFields _ 0x7#4 0#8 rfl rfl (.inr rfl)

theorem sreset : Statement .sreset := of_encodeFields _ 0xF#4 0#8 rfl rfl (.inr rfl)

end Sys2Proof.Laws.LegalEncoding
end

