-- ==== Sys2Proof/Laws/Step.lean ====
section
/-! SUPPORT. What a step can do, said once: every claim about all steps goes through `step_effect`
(20_memory.md R65, R66, R67; 30_encoding.md R87; 70_reset_and_hazards.md R213). -/

namespace Sys2Proof.Machine

/-- A named register stands at one offset only (10_state.md R41). -/
theorem off_eq_of_regAt (off : Nat) (r : Reg) (h : regAt off = r) (hr : r ≠ .reserved) :
    off = regOffset r := by
  unfold regAt at h
  split at h <;> subst h <;> first | rfl | exact absurd rfl hr

theorem Access.legal_iff (a : Access) :
    a.legal = true ↔ a.width = 4 ∧ a.off % 4 = 0 ∧ a.off < 0x100 := by
  simp [Access.legal, Config.accessBytes, Config.windowBytes, and_assoc]

/-- A step that answers a next state, by what the oldest pending event was. -/
inductive StepEffect (s t : State) : Prop where
  | idle (h : s.pending = []) (ht : t = s)
  | read (es : List Event) (off : Nat) (hr : s.inReset = false)
      (h : s.pending = .access ⟨.read, off, 4⟩ :: es)
      (ht : t = ((s.setPending es).pushRead (readReg s.block (regAt off))).setBlock
        (afterRead (regAt off) s.block))
  | wrote (es : List Event) (off : Nat) (v : Word) (hr : s.inReset = false)
      (h : s.pending = .access ⟨.write v, off, 4⟩ :: es) (hc : regAt off ≠ .cmd)
      (ht : t = (s.setPending es).setBlock (afterWrite (regAt off) v s.block))
  | illegal (es : List Event) (w : Word) (e : Illegal) (hr : s.inReset = false)
      (h : s.pending = .access (hostWrite .cmd w) :: es) (hd : decode w = .error e)
      (ht : t = (s.setPending es).raise .illegal)
  | command (es : List Event) (w : Word) (i : Instr) (hr : s.inReset = false)
      (h : s.pending = .access (hostWrite .cmd w) :: es) (hd : decode w = .ok i)
      (he : exec i (s.setPending es) = .next t)
  | asserted (es : List Event) (h : s.pending = .assertReset :: es)
      (ht : t = ((s.setPending es).setBlock Block.reset).setInReset true)
  | released (es : List Event) (h : s.pending = .releaseReset :: es)
      (ht : t = (s.setPending es).setInReset false)
  | interleaved (es : List Event) (hr : s.inReset = false) (h : s.pending = .interleaved :: es)
      (ht : t = ((s.setPending es).setBlock (freeBlock s.freeIdx)).advanceFree freeBlockSize)

theorem performWrite_of_ne_cmd (r : Reg) (v : Word) (s : State) (h : r ≠ .cmd) :
    performWrite r v s = .next (s.setBlock (afterWrite r v s.block)) := by
  cases r <;> first | rfl | exact absurd rfl h

theorem step_effect (s t : State) (h : step s = .next t) : StepEffect s t := by
  unfold step at h
  split at h
  next hp => cases h; exact .idle hp rfl
  next e es hp =>
    cases e with
    | assertReset => cases h; exact .asserted es hp rfl
    | releaseReset => cases h; exact .released es hp rfl
    | interleaved =>
      by_cases hr : s.inReset = true
      · simp [performEvent, hr] at h
      · rw [Bool.not_eq_true] at hr
        simp only [performEvent, State.setPending_inReset, hr, Bool.false_eq_true, if_false] at h
        cases h
        exact .interleaved es hr hp rfl
    | access a =>
      by_cases hr : s.inReset = true
      · simp [performEvent, hr] at h
      · rw [Bool.not_eq_true] at hr
        simp only [performEvent, State.setPending_inReset, hr, Bool.false_eq_true, if_false,
          performAccess] at h
        by_cases hl : a.legal = true
        · rw [if_pos hl] at h
          obtain ⟨kind, off, width⟩ := a
          obtain ⟨hw, -, -⟩ := (Access.legal_iff _).1 hl
          subst hw
          cases kind with
          | read => cases h; exact .read es off hr hp rfl
          | write v =>
            by_cases hc : regAt off = .cmd
            · have hoff : off = regOffset .cmd := off_eq_of_regAt off .cmd hc nofun
              subst hoff
              rw [hc] at h
              simp only [performWrite, execCommandWord] at h
              split at h
              next e' hd => cases h; exact .illegal es v e' hr hp hd rfl
              next i hd => exact .command es v i hr hp hd h
            · replace h := (performWrite_of_ne_cmd _ v (s.setPending es) hc).symm.trans h
              cases h
              exact .wrote es off v hr hp hc rfl
        · simp [hl] at h

/-- The step of a host that writes a word to `CMD` (30_encoding.md R87). -/
theorem step_command (s : State) (w : Word) (es : List Event) (hr : s.inReset = false)
    (h : s.pending = .access (hostWrite .cmd w) :: es) :
    step s = execCommandWord w (s.setPending es) := by
  have hl : (hostWrite .cmd w).legal = true := by simp [Access.legal_iff, hostWrite, regOffset]
  simp only [step, h, performEvent, State.setPending_inReset, hr, Bool.false_eq_true, if_false,
    performAccess, hl, if_true]
  rfl

/-- The step of a host's illegal access (20_memory.md R61; 60_exceptions.md R179). -/
theorem step_illegal (s : State) (a : Access) (es : List Event) (hr : s.inReset = false)
    (hl : a.legal = false) (h : s.pending = .access a :: es) : step s = .fault (.busError a) := by
  simp only [step, h, performEvent, State.setPending_inReset, hr, Bool.false_eq_true, if_false,
    performAccess, hl]

/-- The step of a host's legal read at an offset (10_state.md R29; 20_memory.md R62, R65). -/
theorem step_read_at (s : State) (off : Nat) (es : List Event) (hr : s.inReset = false)
    (h4 : off % 4 = 0) (hl : off < 0x100) (h : s.pending = .access ⟨.read, off, 4⟩ :: es) :
    step s = .next (((s.setPending es).pushRead (readReg s.block (regAt off))).setBlock
      (afterRead (regAt off) s.block)) := by
  have hl : (⟨.read, off, 4⟩ : Access).legal = true := (Access.legal_iff _).2 ⟨rfl, h4, hl⟩
  simp only [step, h, performEvent, State.setPending_inReset, hr, Bool.false_eq_true, if_false,
    performAccess, hl, if_true]
  rfl

/-- The step of a host's legal write at an offset other than `CMD`'s (20_memory.md R62, R63, R65). -/
theorem step_write_at (s : State) (off : Nat) (v : Word) (es : List Event) (hr : s.inReset = false)
    (h4 : off % 4 = 0) (hl : off < 0x100) (hc : regAt off ≠ .cmd)
    (h : s.pending = .access ⟨.write v, off, 4⟩ :: es) :
    step s = .next ((s.setPending es).setBlock (afterWrite (regAt off) v s.block)) := by
  have hl : (⟨.write v, off, 4⟩ : Access).legal = true := (Access.legal_iff _).2 ⟨rfl, h4, hl⟩
  simp only [step, h, performEvent, State.setPending_inReset, hr, Bool.false_eq_true, if_false,
    performAccess, hl, if_true]
  exact performWrite_of_ne_cmd _ _ _ hc

@[simp] theorem regAt_regOffset (r : Reg) : regAt (regOffset r) = r := by cases r <;> rfl

theorem regOffset_legal (r : Reg) : regOffset r % 4 = 0 ∧ regOffset r < 0x100 := by
  cases r <;> exact ⟨rfl, by decide⟩

/-- The step of a host that reads a register (10_state.md R29; 20_memory.md R65). -/
theorem step_read (s : State) (r : Reg) (es : List Event) (hr : s.inReset = false)
    (h : s.pending = .access (hostRead r) :: es) :
    step s = .next (((s.setPending es).pushRead (readReg s.block r)).setBlock
      (afterRead r s.block)) := by
  rw [step_read_at s _ es hr (regOffset_legal r).1 (regOffset_legal r).2 h, regAt_regOffset]

/-- The step of a host that writes a register other than `CMD` (20_memory.md R63, R65). -/
theorem step_write (s : State) (r : Reg) (v : Word) (es : List Event) (hr : s.inReset = false)
    (hc : r ≠ .cmd) (h : s.pending = .access (hostWrite r v) :: es) :
    step s = .next ((s.setPending es).setBlock (afterWrite r v s.block)) := by
  rw [step_write_at s _ v es hr (regOffset_legal r).1 (regOffset_legal r).2
    (by rwa [regAt_regOffset]) h, regAt_regOffset]

/-- No command reads or changes what is still to come (20_memory.md R66). -/
theorem exec_setPending (i : Instr) (s t : State) (es : List Event) (h : exec i s = .next t) :
    exec i (s.setPending es) = .next (t.setPending es) := by
  cases i with
  | nop => cases h; rfl
  | encStart => cases h; rfl
  | decStart => cases h; rfl
  | trunc => cases h; rfl
  | sreset => cases h; rfl
  | encByte b =>
    rcases exec_encByte_cases b s with ⟨hm, hs⟩ | ⟨hm, hu, hs⟩ | ⟨hm, hu, hs⟩ <;>
      (rw [hs] at h; cases h; simp [exec, execEncByte, refuse, *]; rfl)
  | encFlush =>
    rcases exec_encFlush_cases s with ⟨hm, hs⟩ | ⟨hm, hc, hs⟩ | ⟨hm, hc, hu, hs⟩ | ⟨hm, hc, hu, hs⟩ <;>
      (rw [hs] at h; cases h; simp [exec, execEncFlush, refuse, *]; rfl)
  | decChar c =>
    rcases exec_decChar_cases c s with
      ⟨hm, hs⟩ | ⟨hm, hl, hs⟩ | ⟨x, hm, hl, h3, hu, hs⟩ | ⟨x, hm, hl, hu, hs⟩ <;>
      (rw [hs] at h; cases h)
    · simp [exec, execDecChar, refuse, hm]; rfl
    · simp [exec, execDecChar, hm, hl]; rfl
    · simp [exec, execDecChar, refuse, hm, hl, h3, hu]; rfl
    · simp only [exec, execDecChar, State.setPending_block, hm, hl, ne_eq, not_true_eq_false,
        if_false]
      exact if_neg hu
  | decEnd =>
    rcases exec_decEnd_cases s with ⟨hm, hs⟩ | ⟨hm, hs⟩ <;>
      (rw [hs] at h; cases h; simp [exec, execDecEnd, refuse, hm]; rfl)

/-- No event's effect depends on what stands behind it. -/
theorem performEvent_setPending (e : Event) (s t : State) (fs : List Event)
    (h : performEvent e s = .next t) :
    performEvent e (s.setPending fs) = .next (t.setPending fs) := by
  cases e with
  | assertReset => cases h; rfl
  | releaseReset => cases h; rfl
  | interleaved =>
    cases hr : s.inReset <;> simp only [performEvent, State.setPending_inReset, hr] at h ⊢ <;>
      cases h; rfl
  | access a =>
    cases hr : s.inReset <;>
      simp only [performEvent, State.setPending_inReset, hr, if_true, Bool.false_eq_true, if_false,
        performAccess] at h ⊢
    · by_cases hl : a.legal = true
      · simp only [hl, if_true] at h ⊢
        cases hk : a.kind with
        | read => simp only [hk] at h ⊢; cases h; rfl
        | write v =>
          simp only [hk] at h ⊢
          by_cases hc : regAt a.off = .cmd
          · rw [hc] at h ⊢
            simp only [performWrite, execCommandWord] at h ⊢
            cases hd : decode v with
            | error e => simp only [hd] at h ⊢; cases h; rfl
            | ok i => simp only [hd] at h ⊢; exact exec_setPending i s t fs h
          · rw [performWrite_of_ne_cmd _ _ _ hc] at h ⊢; cases h; rfl
      · simp [hl] at h
    · cases h

/-- A step on the oldest event does not depend on what stands behind it (20_memory.md R67). -/
theorem step_setPending (s t : State) (e : Event) (es fs : List Event) (hp : s.pending = e :: es)
    (h : step s = .next t) : step (s.setPending (e :: fs)) = .next (t.setPending fs) := by
  simp only [step, hp] at h
  exact (performEvent_setPending e (s.setPending es) t fs h :)

/-- Every legal access is performed: the step answers a next state with the access gone from the queue,
and a write returns nothing (20_memory.md R61, R66). -/
theorem step_legal (s : State) (a : Access) (es : List Event) (hr : s.inReset = false)
    (hl : a.legal = true) (h : s.pending = .access a :: es) :
    ∃ t, step s = .next t ∧ t.pending = es ∧ t.inReset = false ∧
      ∀ v, a.kind = .write v → t.reads = s.reads := by
  obtain ⟨kind, off, width⟩ := a
  obtain ⟨hw, h4, hx⟩ := (Access.legal_iff _).1 hl
  dsimp only at hw h4 hx
  subst hw
  cases kind with
  | read => exact ⟨_, step_read_at s off es hr h4 hx h, rfl, hr, nofun⟩
  | write v =>
    by_cases hc : regAt off = .cmd
    · have hoff : off = regOffset .cmd := off_eq_of_regAt off .cmd hc nofun
      subst hoff
      have hs := step_command s v es hr h
      simp only [execCommandWord] at hs
      split at hs
      next => exact ⟨_, hs, rfl, hr, fun _ _ => rfl⟩
      next i _ =>
        obtain ⟨t, h1, -, h2, h3, h4⟩ := exec_effect i (s.setPending es)
        exact ⟨t, hs.trans h1, h2, h4.trans hr, fun _ _ => h3⟩
    · exact ⟨_, step_write_at s off v es hr h4 hx hc h, rfl, hr, fun _ _ => rfl⟩

theorem runSteps_succ {n : Nat} {s t : State} (h : step s = .next t) :
    runSteps (n + 1) s = runSteps n t := by simp only [runSteps, h]

/-- A program of legal accesses runs to its end, whatever stands behind it in the queue
(20_memory.md R67; 70_reset_and_hazards.md R212). -/
theorem runSteps_legal (p : List Access) (hp : ∀ a ∈ p, a.legal = true) (s : State)
    (hr : s.inReset = false) :
    ∃ t : State, t.inReset = false ∧ ∀ es,
      runSteps p.length (s.setPending (p.map Event.access ++ es)) = .next (t.setPending es) := by
  induction p generalizing s with
  | nil => exact ⟨s, hr, fun es => rfl⟩
  | cons a p ih =>
    obtain ⟨u, h1, -, h3, -⟩ := step_legal (s.setPending [.access a]) a [] hr (hp a (by simp)) rfl
    obtain ⟨t, h4, h5⟩ := ih (fun b hb => hp b (by simp [hb])) u h3
    exact ⟨t, h4, fun es => (runSteps_succ
      (step_setPending _ u _ [] (p.map Event.access ++ es) rfl h1)).trans (h5 es)⟩

theorem runToEnd_succ {n : Nat} {s t : State} (h : step s = .next t) :
    runToEnd (n + 1) s = runToEnd n t := by simp only [runToEnd, h]

/-- A fault ends a run with the state before it (70_reset_and_hazards.md R212). -/
theorem runToEnd_fault {n : Nat} {s : State} {f : Fault} (h : step s = .fault f) :
    runToEnd (n + 1) s = (s, .fault f) := by simp only [runToEnd, h]

theorem runToEnd_add (m n : Nat) (s t : State) (h : runSteps m s = .next t) :
    runToEnd (m + n) s = runToEnd n t := by
  induction m generalizing s with
  | zero => cases h; simp
  | succ m ih =>
    rw [Nat.add_right_comm]
    simp only [runSteps] at h
    simp only [runToEnd]
    cases hs : step s with
    | next u => simp only [hs] at h ⊢; exact ih u h
    | fault f => simp [hs] at h
    | refused r => simp [hs] at h

/-- A run with no stop is observed as it is. -/
theorem runToEnd_of_next {n : Nat} {s t : State} (h : runSteps n s = .next t) :
    runToEnd n s = (t, .completed) := runToEnd_add n 0 s t h

theorem runSteps_add (m n : Nat) (s t : State) (h : runSteps m s = .next t) :
    runSteps (m + n) s = runSteps n t := by
  induction m generalizing s with
  | zero => cases h; simp
  | succ m ih =>
    rw [Nat.add_right_comm]
    simp only [runSteps] at h ⊢
    cases hs : step s with
    | next u => simp only [hs] at h ⊢; exact ih u h
    | fault f => simp [hs] at h
    | refused r => simp [hs] at h

end Sys2Proof.Machine
end

