-- ==== Sys2Proof/Laws/Registers.lean ====
section
/-! SUPPORT. What the registers show, bit by bit, and what reads and writes do to the block, said once
(10_state.md R25, R26, R35; 20_memory.md R65). -/

namespace Sys2Proof.Machine

/-- `STATUS`, bit by bit (10_state.md R25). -/
theorem statusWord_bit (b : Block) (i : Nat) : (statusWord b).getLsbD i =
    match i with
    | 0 => b.outUnread
    | 1 => b.mode.getLsbD 0
    | 2 => b.mode.getLsbD 1
    | 3 => b.trValid
    | 8 => b.err.illegal
    | 9 => b.err.seq
    | 10 => b.err.ovr
    | 11 => b.err.badchar
    | 12 => b.err.empty
    | 16 => b.err.last.getLsbD 0
    | 17 => b.err.last.getLsbD 1
    | 18 => b.err.last.getLsbD 2
    | 19 => b.err.last.getLsbD 3
    | _ => false := by
  by_cases hi : i < 32
  · simp only [statusWord, BitVec.getLsbD_append, BitVec.getLsbD_ofBool]
    interval_cases i <;> simp
  · rw [BitVec.getLsbD_of_ge _ _ (by omega)]
    split <;> first | omega | rfl

/-- A read leaves every register but `OUT_UNREAD` (20_memory.md R65). -/
theorem afterRead_cases (r : Reg) (b : Block) :
    (r = .out ∧ afterRead r b = b.takeOut) ∨ (r ≠ .out ∧ afterRead r b = b) := by
  cases r <;> simp [afterRead]

/-- A write to a register other than `CMD` stores `STRICT`, acknowledges errors, stores a digest word or
does nothing (20_memory.md R65). -/
theorem afterWrite_cases (r : Reg) (v : Word) (b : Block) :
    (r = .ctrl ∧ afterWrite r v b = b.setCtrl v) ∨
    (r = .status ∧ afterWrite r v b = b.acknowledge v) ∨
    (∃ d, afterWrite r v b = b.setDigest d) ∨ afterWrite r v b = b := by
  cases r
  case ctrl => exact .inl ⟨rfl, rfl⟩
  case status => exact .inr (.inl ⟨rfl, rfl⟩)
  case digest0 | digest1 | digest2 | digest3 | digest4 => exact .inr (.inr (.inl ⟨_, rfl⟩))
  all_goals exact .inr (.inr (.inr rfl))

/-- A step takes the oldest event and no other, or there was none (20_memory.md R66). -/
theorem step_pending (s t : State) (h : step s = .next t) :
    (s.pending = [] ∧ t = s) ∨ ∃ e, s.pending = e :: t.pending := by
  cases step_effect s t h with
  | idle hp ht => exact .inl ⟨hp, ht⟩
  | command es w i hr hp hd he =>
    obtain ⟨t', ht, -, hpend, -⟩ := exec_effect i (s.setPending es)
    rw [he] at ht
    cases ht
    exact .inr ⟨_, by rw [hp, hpend]; rfl⟩
  | read es off hr hp ht => subst ht; exact .inr ⟨_, hp⟩
  | wrote es off v hr hp hc ht => subst ht; exact .inr ⟨_, hp⟩
  | illegal es w e hr hp hd ht => subst ht; exact .inr ⟨_, hp⟩
  | asserted es hp ht => subst ht; exact .inr ⟨_, hp⟩
  | released es hp ht => subst ht; exact .inr ⟨_, hp⟩
  | interleaved es hr hp ht => subst ht; exact .inr ⟨_, hp⟩

/-- A property of the block that reset has and that every access and every command keeps is kept by every
step of a host with exclusive use (60_exceptions.md R187): the induction of the invariants, once. -/
theorem step_keeps_block (P : Block → Prop) (hreset : P Block.reset)
    (hread : ∀ b, P b → P b.takeOut) (hctrl : ∀ b v, P b → P (b.setCtrl v))
    (hack : ∀ b v, P b → P (b.acknowledge v)) (hdig : ∀ b d, P b → P (b.setDigest d))
    (hraise : ∀ b c, P b → P (b.raise c))
    (hcmd : ∀ i b b', P b → CommandEffect i b b' → P b')
    (s t : State) (hx : s.exclusive) (hp : P s.block) (h : step s = .next t) : P t.block := by
  cases step_effect s t h with
  | idle _ ht => rwa [ht]
  | read es off _ _ ht =>
    subst ht
    rcases afterRead_cases (regAt off) s.block with ⟨_, hh⟩ | ⟨_, hh⟩ <;> simp [hh, hp, hread]
  | wrote es off v _ _ _ ht =>
    subst ht
    rcases afterWrite_cases (regAt off) v s.block with ⟨_, hh⟩ | ⟨_, hh⟩ | ⟨_, hh⟩ | hh <;>
      simp [hh, hp, hctrl, hack, hdig]
  | illegal _ _ _ _ _ _ ht => subst ht; simpa using hraise _ _ hp
  | command es w i hr hpd hd he =>
    obtain ⟨t', ht, hE, -⟩ := exec_effect i (s.setPending es)
    rw [he] at ht
    cases ht
    exact hcmd i _ _ hp hE
  | asserted _ _ ht => subst ht; exact hreset
  | released _ _ ht => subst ht; exact hp
  | interleaved es hr hpd => exact absurd (by simp [hpd]) hx

/-- One byte read from `OUT` (10_state.md R27). -/
theorem outBytes_one (b0 b1 : Byte) : outBytes (outWord ⟨1#2, b0, b1⟩) = [b0] := by
  have h0 : (outWord ⟨1#2, b0, b1⟩).extractLsb' 0 2 = 1#2 := by
    apply BitVec.eq_of_toNat_eq; simp only [outWord, BitVec.extractLsb'_toNat, append_toNat]; simp
  have h1 : (outWord ⟨1#2, b0, b1⟩).extractLsb' 24 8 = b0 := by
    apply BitVec.eq_of_toNat_eq; simp only [outWord, BitVec.extractLsb'_toNat, append_toNat]
    have := b0.isLt; have := b1.isLt
    rw [Nat.shiftRight_eq_div_pow]; simp; omega
  simp [outBytes, h0, h1]

/-- Two bytes read from `OUT` (10_state.md R27). -/
theorem outBytes_two (b0 b1 : Byte) : outBytes (outWord ⟨2#2, b0, b1⟩) = [b0, b1] := by
  have h0 : (outWord ⟨2#2, b0, b1⟩).extractLsb' 0 2 = 2#2 := by
    apply BitVec.eq_of_toNat_eq; simp only [outWord, BitVec.extractLsb'_toNat, append_toNat]; simp
  have h1 : (outWord ⟨2#2, b0, b1⟩).extractLsb' 24 8 = b0 := by
    apply BitVec.eq_of_toNat_eq; simp only [outWord, BitVec.extractLsb'_toNat, append_toNat]
    have := b0.isLt; have := b1.isLt
    rw [Nat.shiftRight_eq_div_pow]; simp; omega
  have h2 : (outWord ⟨2#2, b0, b1⟩).extractLsb' 16 8 = b1 := by
    apply BitVec.eq_of_toNat_eq; simp only [outWord, BitVec.extractLsb'_toNat, append_toNat]
    have := b0.isLt; have := b1.isLt
    rw [Nat.shiftRight_eq_div_pow]; simp; omega
  simp [outBytes, h0, h1, h2]

end Sys2Proof.Machine
end

