-- ==== Sys2Proof/Laws/Streams.lean ====
section
/-! SUPPORT. The bit streams of the whole-input functions (00_scope.md R9; 40_encoder.md R101;
41_decoder.md R121): their lengths, and which stream bit each bit of a group or byte is. -/

namespace Sys2Proof.Machine

@[simp] theorem length_bitsMsb {w : Nat} (v : BitVec w) : (bitsMsb v).length = w := by
  simp [bitsMsb]

theorem length_flatMap_bitsMsb {w : Nat} (l : List (BitVec w)) :
    (l.flatMap bitsMsb).length = w * l.length := by
  induction l with
  | nil => simp
  | cons v l ih => simp [ih, Nat.mul_add, Nat.add_comm]

/-- Every value is its bits, first bit most significant (20_memory.md R64). -/
theorem getD_bitsMsb {w : Nat} (v : BitVec w) (i : Nat) (h : i < w) :
    (bitsMsb v).getD i false = v.getLsbD (w - 1 - i) := by
  simp [bitsMsb, h]

/-- The stream of a string, bit by bit: bit `i` of value `j` stands at `w * j + i`. -/
theorem getD_flatMap_bitsMsb {w : Nat} (l : List (BitVec w)) (j i : Nat) (hi : i < w) :
    (l.flatMap bitsMsb).getD (w * j + i) false = (l.getD j 0#w).getLsbD (w - 1 - i) := by
  induction l generalizing j with
  | nil => simp
  | cons v l ih =>
    cases j with
    | zero =>
      simp only [List.flatMap_cons, Nat.mul_zero, Nat.zero_add, List.getD_cons_zero]
      rw [List.getD_append _ _ _ _ (by simpa using hi), getD_bitsMsb v i hi]
    | succ j =>
      simp only [List.flatMap_cons, List.getD_cons_succ]
      rw [List.getD_append_right _ _ _ _ (by simp [Nat.mul_succ]; omega), ← ih j]
      congr 1
      simp [Nat.mul_succ]
      omega

/-- The bits a fold reads, first bit most significant. -/
theorem testBit_foldl_bits (f : Nat → Bool) (n i : Nat) (h : i < n) :
    ((List.range n).foldl (fun acc k => 2 * acc + (f k).toNat) 0).testBit i = f (n - 1 - i) := by
  induction n generalizing i with
  | zero => omega
  | succ n ih =>
    rw [List.range_succ, List.foldl_append]
    simp only [List.foldl_cons, List.foldl_nil]
    cases i with
    | zero => cases hf : f n <;> simp [Nat.testBit_zero, hf]
    | succ i =>
      rw [Nat.testBit_succ]
      have hb : (f n).toNat < 2 := by cases f n <;> simp
      rw [show ∀ a : Nat, (2 * a + (f n).toNat) / 2 = a by intro a; omega, ih i (by omega)]
      congr 1; omega

/-- `w` stream bits from `p` on, bit by bit: the first is the most significant, and a position past the
end is 0 (40_encoder.md R101). -/
theorem getLsbD_bitsAt (w : Nat) (s : List Bool) (p i : Nat) (h : i < w) :
    (bitsAt w s p).getLsbD i = s.getD (p + (w - 1 - i)) false := by
  unfold bitsAt
  rw [BitVec.getLsbD_ofNat, testBit_foldl_bits (fun k => s.getD (p + k) false) w i h]
  simp [h]

/-- A value read back from its own place in the stream of a string. -/
theorem bitsAt_flatMap_bitsMsb {w : Nat} (l : List (BitVec w)) (j : Nat) :
    bitsAt w (l.flatMap bitsMsb) (w * j) = l.getD j 0#w := by
  apply BitVec.eq_of_getLsbD_eq
  intro i hi
  rw [getLsbD_bitsAt _ _ _ _ hi, getD_flatMap_bitsMsb _ _ _ (by omega)]
  congr 1
  omega

end Sys2Proof.Machine
end

