-- ==== Sys2Proof/Tests/Slice0.lean ====
section
/-! SUPPORT. The model's own tests. Every expected value is the spec's: a table or an example of
30_encoding.md, 41_decoder.md, 42_truncation.md, or a vector of 95_test_vectors.md, named in the
docstring. -/

namespace Sys2Proof.Tests

open Sys2Proof.Machine

/-- A block in a mode with some bits pending. -/
def blockWith (m : Mode) (cnt buf : Nat) (unread : Bool) : Block :=
  { Block.reset with
    mode := m
    outUnread := unread
    acc := ⟨BitVec.ofNat 12 buf, BitVec.ofNat 4 cnt⟩ }

/-- The reset state with another block. -/
def withBlock (b : Block) : State := State.reset.setBlock b

/-- An encode in progress (the rows of section 2.2). -/
def encState (cnt buf : Nat) (unread : Bool) : State := withBlock (blockWith Mode.enc cnt buf unread)

/-- A decode in progress (the rows of section 2.4). -/
def decState (cnt buf : Nat) (unread : Bool) : State := withBlock (blockWith Mode.dec cnt buf unread)

/-- The state a step leaves; a stop leaves the state it started from. -/
def after (s : State) (r : Result) : State :=
  match r with
  | .next t => t
  | .fault _ => s
  | .refused _ => s

/-- The fault a step ends in. -/
def faultOf (r : Result) : Option Fault :=
  match r with
  | .next _ => none
  | .fault f => some f
  | .refused _ => none

/-- The registers named, as they read after a command. -/
def regsAfter (i : Instr) (s : State) (rs : List Reg) : List Word :=
  rs.map fun r => readReg (after s (exec i s)).block r

/-- The registers named, as they read after one access on a block. -/
def regsAfterAccess (a : Access) (b : Block) (rs : List Reg) : List Word :=
  let s := (withBlock b).withProgram [a]
  rs.map fun r => readReg (after s (step s)).block r

/-- What one access returns to the host. -/
def readBy (a : Access) (b : Block) : List Word :=
  let s := (withBlock b).withProgram [a]
  (after s (step s)).reads

/-- The fault one access ends in. -/
def accessFault (a : Access) (b : Block) : Option Fault :=
  faultOf (step ((withBlock b).withProgram [a]))

/-! ### Well-formedness: each check refuses an ill-formed term -/

/-- 30_encoding.md R84; vectors K-05, K-06. -/
theorem test_wf_reserved_opcode :
    legalWord 0x80000000#32 = false ∧ legalWord 0xE0000000#32 = false := by decide

/-- 30_encoding.md R84; vectors K-03, K-04, K-09, K-10. -/
theorem test_wf_rsv :
    [0x0F000000#32, 0x00000100#32, 0x25000041#32, 0x2FFFFF00#32].map legalWord =
      [false, false, false, false] := by decide

/-- 30_encoding.md R84; vectors K-02, K-07, K-08. -/
theorem test_wf_stray_data :
    [0x00000001#32, 0x70000001#32, 0xF0000001#32].map legalWord = [false, false, false] := by decide

/-- 20_memory.md R61; vectors M-05, M-06, M-07 and the first offset past the window. -/
theorem test_wf_access :
    Access.legal ⟨.read, 0x12, 4⟩ = false ∧ Access.legal ⟨.write 0x10#32, 0x0C, 1⟩ = false ∧
    Access.legal ⟨.read, 0x10, 2⟩ = false ∧ Access.legal ⟨.read, 0x100, 4⟩ = false ∧
    Access.legal ⟨.read, 0xFC, 4⟩ = true := by decide

/-- 30_encoding.md R88: `IMM8` is 0 to 255. -/
theorem test_wf_asm_operand :
    AsmLine.wellFormed (.encByte 256) = false ∧ assemble (.decChar 256) = none ∧
    assemble (.decChar 255) = some (.decChar 0xFF#8) := by decide

/-! ### Decoding: a word of each family, bit by bit from the table of 30_encoding.md R83 -/

theorem test_decode_control :
    (decode 0b00000000000000000000000000000000#32).toOption = some .nop ∧
    (decode 0b11110000000000000000000000000000#32).toOption = some .sreset := by decide

theorem test_decode_encoder :
    (decode 0b00010000000000000000000000000000#32).toOption = some .encStart ∧
    (decode 0b00100000000000000000000010000001#32).toOption = some (.encByte 0x81#8) ∧
    (decode 0b00110000000000000000000000000000#32).toOption = some .encFlush := by decide

theorem test_decode_decoder :
    (decode 0b01000000000000000000000000000000#32).toOption = some .decStart ∧
    (decode 0b01010000000000000000000001001101#32).toOption = some (.decChar 0x4D#8) ∧
    (decode 0b01100000000000000000000000000000#32).toOption = some .decEnd := by decide

theorem test_decode_truncation :
    (decode 0b01110000000000000000000000000000#32).toOption = some .trunc := by decide

/-- 60_exceptions.md R174; vectors K-05, K-03, K-02. -/
theorem test_decode_names_what_is_illegal :
    decode 0x80000000#32 = .error .reservedOpc ∧ decode 0x0F000000#32 = .error .nonzeroRsv ∧
    decode 0x00000001#32 = .error .strayData := by decide

/-- The table's numbering: bit 0 is the least significant bit of the one word. -/
theorem test_table_words :
    decodeTableWord 32 0x2000004D = some (.encByte 0x4D#8) ∧
    decodeTableWord 32 0x80000000 = none := by decide

/-- 40_encoder.md R102, example, through the fetch. -/
theorem test_fetched_word_runs :
    readReg (after State.reset (step (State.reset.withFetchWord 32 0x10000000))).block .status =
      0x00000002#32 := by decide

/-! ### The commands: at most two cases each -/

/-- 43_control.md R160, example: `ENC` mode with `ACC` = 0x0003_0006. -/
theorem test_nop : regsAfter .nop (encState 3 6 false) [.acc, .status] =
    [0x00030006#32, 0x00000002#32] := by decide

/-- 40_encoder.md R102: it abandons a decode, and unread output stays unread. -/
theorem test_encStart : regsAfter .encStart (decState 7 0x7F true) [.acc, .status] =
    [0#32, 0x00000003#32] := by decide

/-- Vector EC-05: two characters. -/
theorem test_encByte_two : regsAfter (.encByte 0xFF#8) (encState 3 5 false) [.out, .acc, .outCount] =
    [0x58370002#32, 0x00010001#32, 2#32] := by decide

/-- Vector EX-01: `SEQ` before `OVR`. -/
theorem test_encByte_seq : regsAfter (.encByte 0x41#8) (withBlock (blockWith Mode.idle 0 0 true))
    [.status] = [0x00020201#32] := by decide

/-- Vector EC-12: 4 bits and one zero bit. -/
theorem test_encFlush_pads : regsAfter .encFlush (encState 4 15 false) [.out, .acc] =
    [0x36000001#32, 0#32] := by decide

/-- Vector EX-04: nothing pending, so unread output does not matter. -/
theorem test_encFlush_empty : regsAfter .encFlush (encState 0 0 true) [.status] =
    [0x00000001#32] := by decide

/-- 41_decoder.md R122, example. -/
theorem test_decStart : regsAfter .decStart State.reset [.status] = [0x00000004#32] := by decide

/-- Vector DC-06. -/
theorem test_decChar_emits : regsAfter (.decChar 0x51#8) (decState 5 0x15 false)
    [.out, .status, .acc, .inCount] =
    [0xAC000001#32, 0x00000005#32, 0x00020000#32, 1#32] := by decide

/-- Vector DX-03: an unknown character is skipped, and recorded under `STRICT`. -/
theorem test_decChar_strict :
    regsAfter (.decChar 0x3D#8) (withBlock { blockWith Mode.dec 5 0 true with strict := true })
    [.status, .skipCount, .inCount] = [0x00040805#32, 1#32, 0#32] := by decide

/-- Vector DX-04: `EMPTY`. -/
theorem test_decEnd_empty : regsAfter .decEnd (decState 0 0 false) [.status] =
    [0x00051000#32] := by decide

/-- Vector DX-05: `SEQ`. -/
theorem test_decEnd_seq : regsAfter .decEnd State.reset [.status] = [0x00020200#32] := by decide

/-- 42_truncation.md R141, example (counter 0 of section 1.1). -/
theorem test_trunc_counter0 :
    regsAfter .trunc (withBlock { Block.reset with
      digest := ⟨0xCC93CF18#32, 0x508D9493#32, 0x4C64B65D#32, 0x8BA7667F#32, 0xB7CDE4B0#32⟩ })
      [.trOffset, .trP, .trCode, .trAscii0, .trAscii1] =
    [0#32, 0x4C93CF18#32, 0x000B8618#32, 0x37353532#32, 0x32340000#32] := by decide

/-- Vector T-10: an offset that is no word's first byte, and a leading digit that is not 0. -/
theorem test_trunc_offset3 :
    regsAfter .trunc (withBlock { Block.reset with
      digest := ⟨0x00000012#32, 0x34567800#32, 0#32, 0#32, 0x00000003#32⟩ })
      [.trOffset, .trP, .trCode, .trAscii0, .trAscii1] =
    [3#32, 0x12345678#32, 0x00066838#32, 0x34313938#32, 0x39360000#32] := by decide

/-- Vector K-11. -/
theorem test_sreset : (after State.reset (exec .sreset (decState 7 0x7F true))).block =
    Block.reset := by decide

/-! ### The registers -/

/-- Vectors M-01, M-02, M-03. -/
theorem test_reads : readBy (hostRead .id) Block.reset = [0x42335431#32] ∧
    readBy (hostRead .cmd) Block.reset = [0#32] ∧
    readBy ⟨.read, 0x80, 4⟩ Block.reset = [0#32] := by decide

/-- Vectors M-05, M-06, M-07. -/
theorem test_bus_errors :
    accessFault ⟨.read, 0x12, 4⟩ Block.reset = some (.busError ⟨.read, 0x12, 4⟩) ∧
    accessFault ⟨.write 0x10#32, 0x0C, 1⟩ Block.reset =
      some (.busError ⟨.write 0x10#32, 0x0C, 1⟩) ∧
    accessFault ⟨.read, 0x10, 2⟩ Block.reset = some (.busError ⟨.read, 0x10, 2⟩) := by decide

/-- 70_reset_and_hazards.md R212; vector M-07 after a read and an emission: the read before the bus error
is observed, and `OUT_UNREAD` is unchanged. -/
theorem test_observe_bus_error :
    let b := { Block.reset with out := ⟨1#2, 0x4D#8, 0#8⟩, outUnread := true }
    let p : List Access := [hostRead .id, ⟨.read, 0x10, 2⟩, hostRead .out]
    observe p b = ([0x42335431#32], b) ∧
      programEnd p b = .fault (.busError ⟨.read, 0x10, 2⟩) := by decide

/-- Vectors M-08 and M-09. -/
theorem test_writes :
    regsAfterAccess (hostWrite .outCount 0x12345678#32) Block.reset [.outCount, .status] =
      [0#32, 0#32] ∧
    regsAfterAccess (hostWrite .ctrl 0xFFFFFFFF#32) Block.reset [.ctrl] = [1#32] := by decide

/-- Vector M-10: `STATUS` = 0x0003_0C05. -/
theorem test_status_w1c :
    regsAfterAccess (hostWrite .status 0xFFFFFFFF#32)
      { blockWith Mode.dec 0 0 true with err := ⟨false, false, true, true, false, 3#4⟩ } [.status] =
    [0x00030005#32] := by decide

/-- Vector M-11. -/
theorem test_out_read :
    readBy (hostRead .out) { Block.reset with out := ⟨1#2, 0x4D#8, 0#8⟩, outUnread := true } =
      [0x4D000001#32] ∧
    regsAfterAccess (hostRead .out)
      { Block.reset with out := ⟨1#2, 0x4D#8, 0#8⟩, outUnread := true } [.status, .out] =
      [0#32, 0x4D000001#32] := by decide

/-- Vectors M-12 and TS-01: a digest write stores its word, and the results go stale. -/
theorem test_digest_write :
    regsAfterAccess (hostWrite .digest0 0xCC93CF18#32) { Block.reset with trValid := true }
      [.digest0, .status] = [0xCC93CF18#32, 0#32] ∧
    (List.range 4).map (digestByte ⟨0xCC93CF18#32, 0#32, 0#32, 0#32, 0#32⟩) =
      [0xCC#8, 0x93#8, 0xCF#8, 0x18#8] := by decide

/-! ### Reset is a state of each invariant -/

theorem test_reset_codecOk : State.reset.block.codecOk := by
  unfold Block.codecOk; decide

theorem test_reset_outOk : State.reset.block.outOk := by
  unfold Block.outOk; decide

/-! ### Witnesses: for each statement with hypotheses, a state and operands that meet them, one for each
clause and at the ends of its range -/

/-- `BothResetsLeaveTheStatedValues` and the statements over every state have no hypothesis; here are
those of `SresetGivesTheResetState` and `NopChangesNothing`. -/
theorem witness_control_words :
    ((0xF0000001#32 : Word).toNat / 2 ^ 28 = 0xF ∧ (0xF0000001#32 : Word) ≠ 0xF0000000#32) ∧
    ((0x00000001#32 : Word).toNat / 2 ^ 28 = 0 ∧ (0x00000001#32 : Word) ≠ 0#32) := by decide

/-- `LegalWordsAreExactlyTheCommands`: both ends of the reserved opcodes. -/
theorem witness_LegalWordsAreExactlyTheCommands :
    legalWord 0x80000000#32 = false ∧
    (8 ≤ (0x80000000#32 : Word).toNat / 2 ^ 28 ∧ (0x80000000#32 : Word).toNat / 2 ^ 28 ≤ 14) ∧
    (8 ≤ (0xEFFFFFFF#32 : Word).toNat / 2 ^ 28 ∧ (0xEFFFFFFF#32 : Word).toNat / 2 ^ 28 ≤ 14) := by
  decide

/-- `DecodeEncodeAgree`: a word that is no command's, since it decodes to none. -/
theorem witness_DecodeEncodeAgree :
    (∀ i : Instr, (0x80000000#32 : Word) ≠ encode i) := by
  intro i h
  have ho : opcField 0x80000000#32 = 8#4 := by decide
  rw [h] at ho
  cases i <;> simp [encode, Laws.LegalEncoding.opcField_encodeFields] at ho

/-- `AssemblyOperandsAreZeroTo255`: the numbers on both sides of the bound. -/
theorem witness_AssemblyOperandsAreZeroTo255 : 255 ≤ 255 ∧ 255 < 256 := by decide

/-- `StepRunsTheDecodedCommand`: a command word, an illegal word and a read of `CMD`. -/
theorem witness_StepRunsTheDecodedCommand :
    State.reset.inReset = false ∧
    (State.reset.withProgram [hostCommand .trunc]).pending =
      .access ⟨.write 0x70000000#32, 0x0C, 4⟩ :: [] ∧
    decode 0x70000000#32 = .ok .trunc ∧
    (State.reset.withProgram [hostWrite .cmd 0x70000001#32]).pending =
      .access ⟨.write 0x70000001#32, 0x0C, 4⟩ :: [] ∧
    decode 0x70000001#32 = .error .strayData ∧
    (State.reset.withProgram [hostRead .cmd]).pending = .access ⟨.read, 0x0C, 4⟩ :: [] := by decide

/-- `IllegalWordsAreRefused`: each of the three kinds alone. -/
theorem witness_IllegalWordsAreRefused :
    (8 ≤ (0x80000000#32 : Word).toNat / 2 ^ 28 ∧ (0x80000000#32 : Word).toNat / 2 ^ 28 ≤ 14) ∧
    (0x00000100#32 : Word).toNat / 2 ^ 8 % 2 ^ 20 ≠ 0 ∧
    ((0xF00000FF#32 : Word).toNat % 2 ^ 8 ≠ 0 ∧ (0xF00000FF#32 : Word).toNat / 2 ^ 28 ≠ 2 ∧
      (0xF00000FF#32 : Word).toNat / 2 ^ 28 ≠ 5) := by decide

/-- `NothingButIllegalAccessesStopsTheBlock`: each of its three cases has a state. -/
theorem witness_NothingButIllegalAccessesStopsTheBlock :
    (∃ t, step State.reset = .next t) ∧
    (State.reset.withProgram [⟨.read, 0x12, 4⟩]).nextAccess ⟨.read, 0x12, 4⟩ ∧
    (({ State.reset with inReset := true } : State).withProgram [hostRead .id]).inReset = true :=
  ⟨⟨_, rfl⟩, ⟨rfl, rfl⟩, rfl⟩

/-- `ProgramsRunInSequence`: a program that runs to its end. -/
theorem witness_ProgramsRunInSequence :
    ∃ t, runProgram [hostCommand .encStart] (State.reset.withProgram [hostRead .status]) = .next t :=
  ⟨_, rfl⟩

/-- `HostProgramsAreObserved`: a program of legal accesses, the ends of the offsets, and an illegal
access. -/
theorem witness_HostProgramsAreObserved :
    (∀ a ∈ [hostCommand .encStart, hostRead .status], a.legal = true) ∧
    (∀ off ∈ [0x00, 0xFC], off % 4 = 0 ∧ off < 0x100) ∧
    (⟨.read, 0x12, 4⟩ : Access).legal = false := by decide

/-- `AlphabetIsTheThirtyTwoCodes`: the ends of both ranges. -/
theorem witness_AlphabetIsTheThirtyTwoCodes :
    (0#5 : Group).toNat ≤ 25 ∧ (25#5 : Group).toNat ≤ 25 ∧ 26 ≤ (26#5 : Group).toNat ∧
    26 ≤ (31#5 : Group).toNat := by decide

/-- `EncStartBeginsAnEncode`: output left unread. -/
theorem witness_EncStartBeginsAnEncode :
    (decState 7 0 true).block.outUnread = true ∧
    ∃ t, exec .encStart (decState 7 0 true) = .next t := ⟨rfl, _, rfl⟩

/-- `EncByteEmitsTheHighestGroups`: outside `ENC`, unread, and both shapes on both sides of the bound
and at the ends of the count's width. -/
theorem witness_EncByteEmitsTheHighestGroups :
    State.reset.block.mode ≠ 0b01#2 ∧
    ((encState 0 0 true).block.mode = 0b01#2 ∧ (encState 0 0 true).block.outUnread = true) ∧
    (∀ n ∈ [0, 1], (encState n 0 false).block.mode = 0b01#2 ∧
      (encState n 0 false).block.outUnread = false ∧
      (encState n 0 false).block.acc.cnt.toNat + 8 < 10) ∧
    (∀ n ∈ [2, 4, 14], (encState n 0 false).block.mode = 0b01#2 ∧
      (encState n 0 false).block.outUnread = false ∧
      10 ≤ (encState n 0 false).block.acc.cnt.toNat + 8 ∧
      (encState n 0 false).block.acc.cnt.toNat + 8 ≤ 22) := by decide

/-- `EncFlushEmitsThePaddedGroup`: outside `ENC`, nothing pending, unread, and 1, 4 and 5 pending. -/
theorem witness_EncFlushEmitsThePaddedGroup :
    State.reset.block.mode ≠ 0b01#2 ∧
    ((encState 0 0 true).block.mode = 0b01#2 ∧ (encState 0 0 true).block.acc.cnt = 0#4) ∧
    ((encState 1 1 true).block.mode = 0b01#2 ∧ (encState 1 1 true).block.acc.cnt ≠ 0#4 ∧
      (encState 1 1 true).block.outUnread = true) ∧
    (∀ n ∈ [1, 4, 5], (encState n 1 false).block.mode = 0b01#2 ∧
      (encState n 1 false).block.acc.cnt ≠ 0#4 ∧ (encState n 1 false).block.outUnread = false ∧
      (encState n 1 false).block.acc.cnt.toNat ≤ 5) := by decide

/-- `OverfullEncodeStillCompletes`: 6 and 15 pending. -/
theorem witness_OverfullEncodeStillCompletes :
    ∀ n ∈ [6, 15], (encState n 1 false).block.mode = 0b01#2 ∧
      5 < (encState n 1 false).block.acc.cnt.toNat ∧
      (encState n 1 false).block.outUnread = false ∧ (encState 15 1 false).block.acc.cnt = 15#4 := by
  decide

/-- `EncoderEmitsOnlyAlphabetCodes`: both commands answer. -/
theorem witness_EncoderEmitsOnlyAlphabetCodes :
    (∃ t, exec .encFlush (encState 4 15 false) = .next t) ∧
    (∃ t, exec (.encByte 0xFF#8) (encState 4 15 false) = .next t) := ⟨⟨_, rfl⟩, ⟨_, rfl⟩⟩

/-- `LookupIsTheCharacterMap`: the ends of the three ranges, and the codes beside them. -/
theorem witness_LookupIsTheCharacterMap :
    (∀ c ∈ [0x41#8, 0x5A#8], 0x41 ≤ c.toNat ∧ c.toNat ≤ 0x5A) ∧
    (∀ c ∈ [0x61#8, 0x7A#8], 0x61 ≤ c.toNat ∧ c.toNat ≤ 0x7A) ∧
    (∀ c ∈ [0x32#8, 0x37#8], 0x32 ≤ c.toNat ∧ c.toNat ≤ 0x37) ∧
    (∀ c ∈ [0x00#8, 0x31#8, 0x38#8, 0x40#8, 0x5B#8, 0x60#8, 0x7B#8, 0xFF#8],
      ¬(0x41 ≤ c.toNat ∧ c.toNat ≤ 0x5A) ∧ ¬(0x61 ≤ c.toNat ∧ c.toNat ≤ 0x7A) ∧
      ¬(0x32 ≤ c.toNat ∧ c.toNat ≤ 0x37)) := by decide

/-- `DecCharSkipsOrShiftsIn`: outside `DEC`, an unknown character, and a known one refused, emitting and
not emitting, on both sides of the bound and at the ends of the count's width. -/
theorem witness_DecCharSkipsOrShiftsIn :
    State.reset.block.mode ≠ 0b10#2 ∧
    ((decState 7 0 true).block.mode = 0b10#2 ∧ lookup 0x3D#8 = none ∧ lookup 0x4D#8 = some 12#5) ∧
    (∀ n ∈ [3, 7, 15], (decState n 0 true).block.mode = 0b10#2 ∧
      3 ≤ (decState n 0 true).block.acc.cnt.toNat ∧ (decState n 0 true).block.outUnread = true ∧
      (decState n 0 false).block.outUnread = false) ∧
    (∀ n ∈ [0, 2], (decState n 0 true).block.mode = 0b10#2 ∧
      (decState n 0 true).block.acc.cnt.toNat < 3) := by decide

/-- `DecEndDiscardsAndReportsEmpty`: outside `DEC`, and in it with and without output. -/
theorem witness_DecEndDiscardsAndReportsEmpty :
    State.reset.block.mode ≠ 0b10#2 ∧ (decState 0 0 false).block.mode = 0b10#2 ∧
    (decState 0 0 false).block.counters.output = 0#32 ∧
    (withBlock { blockWith Mode.dec 4 0 false with counters := ⟨8#32, 0#32, 5#32⟩ }).block.counters.output
      ≠ 0#32 := by decide

/-- `AccumulatorCountsFollowTheTables`: the first and last row of both tables. -/
theorem witness_AccumulatorCountsFollowTheTables :
    (∀ n ∈ [0, 4], (encState n 0 false).block.mode = Mode.enc ∧
      (encState n 0 false).block.outUnread = false ∧
      (encState n 0 false).block.acc.cnt.toNat ≤ 4) ∧
    lookup 0x37#8 = some 31#5 ∧
    (∀ n ∈ [0, 7], (decState n 0 false).block.mode = Mode.dec ∧
      (decState n 0 false).block.outUnread = false ∧
      (decState n 0 false).block.acc.cnt.toNat ≤ 7) := by decide

/-- `TruncCommutesWithTheCodec` and `CodecCommandsLeaveTheTruncationUnit`: the codec's commands. -/
theorem witness_codec_commands :
    ([.encStart, .encByte 0#8, .encFlush, .decStart, .decChar 0#8, .decEnd] : List Instr).map
      isCodecCommand = [true, true, true, true, true, true] := by decide

/-- `TruncDependsOnTheDigestAlone`: two states that differ in everything but the digest's value. -/
theorem witness_TruncDependsOnTheDigestAlone :
    State.reset.block.digest = (decState 7 0x7F true).block.digest ∧
    State.reset.block ≠ (decState 7 0x7F true).block := by decide

/-- `WrongModeAndUnreadOutputRefuse`: each clause has its state. -/
theorem witness_WrongModeAndUnreadOutputRefuse :
    State.reset.block.mode ≠ Mode.enc ∧ State.reset.block.mode ≠ Mode.dec ∧
    ((encState 1 0 true).block.outUnread = true ∧ (encState 1 0 true).block.mode = Mode.enc ∧
      0 < (encState 1 0 true).block.acc.cnt.toNat) ∧
    ((decState 3 0 true).block.outUnread = true ∧ (decState 3 0 true).block.mode = Mode.dec ∧
      3 ≤ (decState 3 0 true).block.acc.cnt.toNat ∧ lookup 0x41#8 ≠ none) ∧
    Instr.encStart ∈ [Instr.encStart, .decStart, .trunc, .nop] := by decide

/-- `RefusalIsPrecise`: a refusal of either cause. -/
theorem witness_RefusalIsPrecise :
    refusalCause .encFlush State.reset.block = some .seq ∧
    refusalCause (.encByte 0#8) (encState 0 0 true).block = some .ovr := by decide

/-- `OneCommandRecordsAtMostOneError`: a command that is not `SRESET`, with and without an error. -/
theorem witness_OneCommandRecordsAtMostOneError :
    Instr.decEnd ≠ .sreset ∧ commandError .decEnd (decState 0 0 false).block = some .empty ∧
    commandError .nop State.reset.block = none := by decide

/-- A step of the host that is neither a reset nor interleaved use. -/
theorem ordinary_of_read (r : Reg) (b : Block) :
    ¬((withBlock b).withProgram [hostRead r]).nextResets ∧
    ¬((withBlock b).withProgram [hostRead r]).nextInterleaved := by
  simp [State.nextResets, State.nextAccess, State.nextInterleaved, State.withProgram, withBlock,
    State.setBlock, State.reset, hostRead, hostCommand, hostWrite]

/-- `OnlyTheHostAndResetClearErrors`: a recorded error, in `STATUS` bits 8 and 12 and in `LAST_ERR`. -/
theorem witness_OnlyTheHostAndResetClearErrors :
    let b := { Block.reset with err := ⟨true, false, false, false, true, 5#4⟩ }
    let s := (withBlock b).withProgram [hostRead .status]
    (∃ t, step s = .next t) ∧ ¬s.nextResets ∧ ¬s.nextInterleaved ∧
    (∀ k ∈ [8, 12], 8 ≤ k ∧ k ≤ 12 ∧ (readReg s.block .status).getLsbD k = true) ∧
    s.block.err.last ≠ 0#4 :=
  ⟨⟨_, rfl⟩, (ordinary_of_read _ _).1, (ordinary_of_read _ _).2, by decide, by decide⟩

/-- `HostReadsReturnTheRegister`: the first and the last offset, `OUT`, and a reserved one. -/
theorem witness_HostReadsReturnTheRegister :
    State.reset.inReset = false ∧
    (∀ off ∈ [0x00, 0x10, 0x48, 0x4C, 0xFC], off % 4 = 0 ∧ off < 0x100 ∧
      (State.reset.withProgram [⟨.read, off, 4⟩]).pending = .access ⟨.read, off, 4⟩ :: []) ∧
    0x4C ≤ 0x4C ∧ ∃ t, step (State.reset.withProgram [⟨.read, 0x10, 4⟩]) = .next t :=
  ⟨rfl, by decide, by decide, _, rfl⟩

/-- `RegisterMapIsAsStated`: the first and the last reserved offset. -/
theorem witness_RegisterMapIsAsStated : 0x4C ≤ 0x4C ∧ 0x4C ≤ 0xFC := by decide

/-- `StatusWriteClearsTheBitsWrittenOne`, `CtrlWriteStoresStrictOnly`, `DigestWriteStoresFourBytes` (its
first and last word) and `ReadOnlyAndReservedIgnoreWrites` (the ends of its ranges): each write is
pending. -/
theorem witness_writes :
    State.reset.inReset = false ∧
    (∀ off ∈ [0x08, 0x04, 0x24 + 4 * 0, 0x24 + 4 * 4, 0x00, 0x10, 0x20, 0x38, 0x4C, 0xFC],
      (State.reset.withProgram [⟨.write 0xFFFFFFFF#32, off, 4⟩]).pending =
        .access ⟨.write 0xFFFFFFFF#32, off, 4⟩ :: []) ∧
    (∀ off ∈ [0x4C, 0xFC],
      (State.reset.withProgram [⟨.read, off, 4⟩]).pending = .access ⟨.read, off, 4⟩ :: []) ∧
    0 < 5 ∧ 4 < 5 ∧ 0x4C ≤ 0xFC ∧
    (∀ off ∈ [0x00, 0x10, 0x20, 0x38, 0xFC], off % 4 = 0 ∧ off < 0x100 ∧
      (off = 0x00 ∨ (0x10 ≤ off ∧ off ≤ 0x20) ∨ 0x38 ≤ off)) := by decide

/-- `IllegalAccessIsABusError`: each illegality alone, and the last legal offset. -/
theorem witness_IllegalAccessIsABusError :
    (∀ a ∈ ([⟨.read, 0x10, 2⟩, ⟨.read, 0x12, 4⟩, ⟨.read, 0x100, 4⟩] : List Access),
      ¬(a.width = 4 ∧ a.off % 4 = 0 ∧ a.off < 0x100) ∧
      (State.reset.withProgram [a]).inReset = false ∧
      (State.reset.withProgram [a]).pending = .access a :: []) ∧
    ((⟨.read, 0xFC, 4⟩ : Access).width = 4 ∧ (⟨.read, 0xFC, 4⟩ : Access).off % 4 = 0 ∧
      (⟨.read, 0xFC, 4⟩ : Access).off < 0x100) := by decide

/-- `WindowHoldsTheAddressesFromBase`: the first and last byte of a window, and the bytes beside it. -/
theorem witness_WindowHoldsTheAddressesFromBase :
    (∀ off ∈ [0, 0xFF], off < 0x100 ∧ 0x1000 + off = 0x1000 + off) ∧
    (0xFFF < 0x1000 ∨ 0x1000 + 0x100 ≤ 0xFFF) ∧ (0x1100 < 0x1000 ∨ 0x1000 + 0x100 ≤ 0x1100) := by
  decide

/-- `HardwareResetHoldsTheBlock`: reset asserted, released, and an access held off by it. -/
theorem witness_HardwareResetHoldsTheBlock :
    ({ State.reset with pending := [.assertReset] } : State).pending = .assertReset :: [] ∧
    ({ State.reset with pending := [.releaseReset], inReset := true } : State).pending =
      .releaseReset :: [] ∧
    ({ State.reset with pending := [.access (hostRead .id)], inReset := true } : State).inReset =
      true ∧
    ({ State.reset with pending := [.access (hostRead .id)], inReset := true } : State).pending =
      .access (hostRead .id) :: [] := by decide

/-- `InterleavedUseLeavesSomeBlock`: interleaved use with reset released. -/
theorem witness_InterleavedUseLeavesSomeBlock :
    ({ State.reset with pending := [.interleaved] } : State).inReset = false ∧
    ({ State.reset with pending := [.interleaved] } : State).pending = .interleaved :: [] := by decide

/-- A state in the middle of an encode, with output unread, the next access a refused command: it meets
the hypotheses of the invariants' statements and of `UnreadOutputIsNeverLost`. -/
def midEncode : State :=
  (withBlock { blockWith Mode.enc 3 7 true with
    out := ⟨1#2, 0x37#8, 0#8⟩
    counters := ⟨1#32, 0#32, 1#32⟩ }).withProgram [hostCommand (.encByte 0#8)]

/-- The invariants hold there: `StepKeepsTheAccumulatorBounds`, `StepKeepsTheOutputAndErrorForms`,
`StepKeepsTruncValidMeaningCurrent` and `StepKeepsTheCountingLaws`. -/
theorem witness_invariants :
    midEncode.exclusive ∧ midEncode.heldInReset ∧ midEncode.block.codecOk ∧
    midEncode.block.outOk ∧ midEncode.block.errOk ∧ midEncode.block.truncOk ∧
    midEncode.block.countsOk ∧ ∃ t, step midEncode = .next t := by
  refine ⟨by unfold State.exclusive; decide, fun h => absurd h (by decide),
    by unfold Block.codecOk; decide, by unfold Block.outOk; decide, by unfold Block.errOk; decide,
    ⟨.inl rfl, fun h => absurd h (by decide)⟩, ⟨by decide, by decide⟩, _, rfl⟩

/-- The counting laws' other clause: a decode in progress. -/
theorem witness_countsOk_decode :
    (withBlock { blockWith Mode.dec 2 1 false with counters := ⟨2#32, 0#32, 1#32⟩ }).block.countsOk :=
  ⟨by decide, by decide⟩

/-- A block held in reset, with reset released next. -/
theorem witness_heldInReset :
    ({ State.reset with pending := [.releaseReset], inReset := true } : State).heldInReset ∧
    ∃ t, step ({ State.reset with pending := [.releaseReset], inReset := true } : State) = .next t :=
  ⟨fun _ => rfl, _, rfl⟩

/-- `UnreadOutputIsNeverLost` and `CountersNeverWrap`: the step of `midEncode` is none of the exceptions. -/
theorem witness_UnreadOutputIsNeverLost :
    (∃ t, step midEncode = .next t) ∧ ¬midEncode.nextResets ∧ ¬midEncode.nextInterleaved ∧
    midEncode.block.outUnread = true ∧ ¬midEncode.nextAccess (hostCommand .encStart) ∧
    ¬midEncode.nextAccess (hostCommand .decStart) := by
  refine ⟨⟨_, rfl⟩, ?_⟩
  unfold State.nextResets State.nextAccess State.nextInterleaved
  decide

/-- `OnlyFiveCommandsWriteMode`: a step that changes the mode. -/
theorem witness_OnlyFiveCommandsWriteMode :
    ∃ t, step (State.reset.withProgram [hostCommand .encStart]) = .next t ∧
      t.block.mode ≠ (State.reset.withProgram [hostCommand .encStart]).block.mode :=
  ⟨_, rfl, by decide⟩

/-- `EncodeSequenceComputesEncode` and `DecodeSequenceComputesDecode`: a state in the middle of an
operation, with no output unread. -/
theorem witness_sequences :
    (decState 7 0x7F false).inReset = false ∧ (decState 7 0x7F false).block.outUnread = false := by
  decide

end Sys2Proof.Tests
end

section
/-! SUPPORT. Host accesses to single registers (10_state.md R26, R29, R34, R35, R40): what a `CMD` write,
a read, a `STATUS` write and a `DIGESTk` write do, each obligation from the lemmas above it. -/

namespace Sys2Proof.Machine

/-! ### `CMD` -/

theorem execCommandWord_of_ok {w : Word} {i : Instr} (h : decode w = .ok i) (s : State) :
    execCommandWord w s = exec i s := by
  simp only [execCommandWord, h]

theorem execCommandWord_of_error {w : Word} {e : Illegal} (h : decode w = .error e) (s : State) :
    execCommandWord w s = .next (s.raise .illegal) := by
  simp only [execCommandWord, h, refuse]

/-- Settles O7: the step of a `CMD` write is `execCommandWord`, that of a `CMD` read returns the 0 that
`CMD` reads as. -/
theorem stepRunsTheDecodedCommand : Obligations.StepRunsTheDecodedCommand := by
  intro s w rest hr
  constructor
  · intro hp
    have hstep : step s = execCommandWord w (s.setPending rest) := step_command s w rest hr hp
    exact ⟨fun i hd => hstep.trans (execCommandWord_of_ok hd _),
      fun e hd => hstep.trans (execCommandWord_of_error hd _)⟩
  · intro hp
    exact step_read s .cmd rest hr hp

/-! ### Reads -/

/-- `OUT` stands at 0x10 and nowhere else (10_state.md R41). -/
theorem regAt_eq_out_iff (off : Nat) : regAt off = .out ↔ off = 0x10 := by
  constructor
  · intro h
    exact off_eq_of_regAt off .out h nofun
  · rintro rfl
    rfl

/-- Every offset behind the last named register is reserved (10_state.md R41). -/
theorem regAt_of_reservedOffset {off : Nat} (h : 0x4C ≤ off) : regAt off = .reserved := by
  by_contra hne
  have hoff : off = regOffset (regAt off) := off_eq_of_regAt off _ rfl hne
  have hle : ∀ r, r ≠ .reserved → regOffset r < 0x4C := by
    intro r hr
    cases r
    case reserved => exact absurd rfl hr
    all_goals decide
  have := hle _ hne
  omega

/-- The side effect of a read, by its offset (10_state.md R29; 20_memory.md R65). -/
theorem afterRead_regAt (off : Nat) (b : Block) :
    afterRead (regAt off) b = if off = 0x10 then { b with outUnread := false } else b := by
  rcases afterRead_cases (regAt off) b with ⟨hr, h⟩ | ⟨hr, h⟩
  · rw [h, if_pos ((regAt_eq_out_iff off).1 hr)]
    rfl
  · rw [h, if_neg (mt (regAt_eq_out_iff off).2 hr)]

/-- No read changes the value `OUT` reads as (10_state.md R29). -/
theorem afterRead_out (r : Reg) (b : Block) : (afterRead r b).out = b.out := by
  rcases afterRead_cases r b with ⟨-, h⟩ | ⟨-, h⟩ <;> simp [h]

/-- Settles O35: the step of a legal read, with the read's side effect said by its offset. -/
theorem hostReadsReturnTheRegister : Obligations.HostReadsReturnTheRegister := by
  intro s off rest hr h4 hlt hp
  have hstep := step_read_at s off rest hr h4 hlt hp
  refine ⟨?_, ?_, ?_⟩
  · rw [hstep, afterRead_regAt]
    rfl
  · intro t ht
    cases hstep.symm.trans ht
    exact congrArg outWord (afterRead_out (regAt off) s.block)
  · intro hres
    rw [regAt_of_reservedOffset hres]
    rfl

/-! ### `STATUS` -/

/-- The mask of the five `ERR_*` bits, bit by bit (10_state.md R25). -/
theorem errMask_bit (i : Nat) :
    (0x00001F00#32).getLsbD i = decide (8 ≤ i ∧ i ≤ 12) := by
  by_cases hi : i < 32
  · interval_cases i <;> rfl
  · rw [BitVec.getLsbD_of_ge _ _ (by omega), decide_eq_false (by omega)]

/-- Acknowledging errors clears in `STATUS` exactly the `ERR_*` bits written with 1 (10_state.md R26). -/
theorem statusWord_acknowledge (v : Word) (b : Block) :
    statusWord (b.acknowledge v) = statusWord b &&& ~~~(v &&& 0x00001F00#32) := by
  apply BitVec.eq_of_getLsbD_eq
  intro i hi
  rw [BitVec.getLsbD_and, BitVec.getLsbD_not, BitVec.getLsbD_and, errMask_bit, statusWord_bit,
    statusWord_bit]
  split <;> simp [acknowledgeErrors]

/-- Settles O37: a `STATUS` write is `Block.acknowledge`, which touches the error bits alone. -/
theorem statusWriteClearsTheBitsWrittenOne : Obligations.StatusWriteClearsTheBitsWrittenOne := by
  intro s v rest hr hp
  exact ⟨_, step_write s .status v rest hr nofun hp, statusWord_acknowledge v s.block, rfl, rfl⟩

/-! ### `DIGESTk` -/

/-- `DIGESTk` as a function of `k`, 0 to 4 (10_state.md R34). -/
def Digest.word (d : Digest) : Nat → Word
  | 0 => d.w0
  | 1 => d.w1
  | 2 => d.w2
  | 3 => d.w3
  | _ => d.w4

/-- The digest with `DIGESTk` replaced, `k` from 0 to 4 (10_state.md R35). -/
def Digest.setWord (d : Digest) (v : Word) : Nat → Digest
  | 0 => { d with w0 := v }
  | 1 => { d with w1 := v }
  | 2 => { d with w2 := v }
  | 3 => { d with w3 := v }
  | _ => { d with w4 := v }

/-- Writing one digest word changes that word alone. -/
theorem Digest.word_setWord (d : Digest) (v : Word) {j k : Nat} (hj : j < 5) (hk : k < 5) :
    (d.setWord v k).word j = if j = k then v else d.word j := by
  interval_cases k <;> interval_cases j <;> rfl

/-- The digest registers stand at 0x24 to 0x34 and read as the digest's words (10_state.md R41). -/
theorem readReg_digest (b : Block) {k : Nat} (hk : k < 5) :
    readReg b (regAt (0x24 + 4 * k)) = b.digest.word k := by
  interval_cases k <;> rfl

theorem afterWrite_digest (v : Word) (b : Block) {k : Nat} (hk : k < 5) :
    afterWrite (regAt (0x24 + 4 * k)) v b = b.setDigest (b.digest.setWord v k) := by
  interval_cases k <;> rfl

theorem regAt_digest_ne_cmd {k : Nat} : regAt (0x24 + 4 * k) ≠ .cmd := by
  intro h
  have hoff : 0x24 + 4 * k = 0x0C := off_eq_of_regAt _ _ h nofun
  omega

/-- The digest bytes are the five words in order, `DIGEST0` highest (10_state.md R34). -/
theorem extractLsb'_digestBits (d : Digest) {k : Nat} (hk : k < 5) :
    (digestBits d).extractLsb' (32 * (4 - k)) 32 = d.word k := by
  have h0 := d.w0.isLt; have h1 := d.w1.isLt; have h2 := d.w2.isLt
  have h3 := d.w3.isLt; have h4 := d.w4.isLt
  apply BitVec.eq_of_toNat_eq
  simp only [digestBits, BitVec.extractLsb'_toNat, append_toNat, Nat.shiftRight_eq_div_pow]
  interval_cases k <;> simp only [Digest.word] <;> omega

/-- `D[i]` is byte `i % 4` of `DIGEST(i / 4)`, counted from the highest (10_state.md R34). -/
theorem digestByte_eq (d : Digest) {i : Nat} (hi : i < 20) :
    digestByte d i = BitVec.ofNat 8 ((d.word (i / 4)).toNat / 2 ^ (8 * (3 - i % 4))) := by
  have hpos : 8 * (19 - i) = 32 * (4 - i / 4) + 8 * (3 - i % 4) := by omega
  apply BitVec.eq_of_getLsbD_eq
  intro j hj
  rw [digestByte, BitVec.getLsbD_extractLsb', BitVec.getLsbD_ofNat, Nat.testBit_div_two_pow,
    BitVec.testBit_toNat, ← extractLsb'_digestBits d (by omega), BitVec.getLsbD_extractLsb', hpos]
  have hin : 8 * (3 - i % 4) + j < 32 := by omega
  simp [hin, hj, Nat.add_assoc, Nat.add_comm j]

/-- Settles O39: a `DIGESTk` write replaces word `k`, and each digest byte is a byte of its own word. -/
theorem digestWriteStoresFourBytes : Obligations.DigestWriteStoresFourBytes := by
  intro s v k rest hr hk hp
  have hstep := step_write_at s _ v rest hr (by omega) (by omega) regAt_digest_ne_cmd hp
  rw [afterWrite_digest v s.block hk] at hstep
  refine ⟨_, hstep, ?_, ?_, rfl⟩
  · rw [readReg_digest _ hk, State.setBlock_block, Block.setDigest_digest,
      Digest.word_setWord _ _ hk hk, if_pos rfl]
  · intro i hi
    rw [State.setBlock_block, Block.setDigest_digest, digestByte_eq _ hi, digestByte_eq _ hi,
      Digest.word_setWord _ _ (by omega) hk]
    split <;> rfl

end Sys2Proof.Machine
end

section
/-! SUPPORT. Accesses that act on nothing (20_memory.md R62, R63): writes to read-only registers and
reserved offsets, and reads of reserved offsets. -/

namespace Sys2Proof.Machine

/-- The registers a host write acts on; every other is read-only or reserved (10_state.md R41;
20_memory.md R62, R63). -/
def writable : Reg → Bool
  | .ctrl | .status | .cmd | .digest0 | .digest1 | .digest2 | .digest3 | .digest4 => true
  | .id | .out | .acc | .inCount | .skipCount | .outCount
  | .trOffset | .trP | .trCode | .trAscii0 | .trAscii1 | .reserved => false

theorem afterWrite_of_not_writable {r : Reg} (h : writable r = false) (v : Word) (b : Block) :
    afterWrite r v b = b := by
  cases r
  case ctrl | status | cmd | digest0 | digest1 | digest2 | digest3 | digest4 => cases h
  all_goals rfl

theorem ne_cmd_of_not_writable {r : Reg} (h : writable r = false) : r ≠ .cmd := by
  rintro rfl
  cases h

/-- The writable registers stand in two runs of the window: `CTRL` to `CMD`, and the digest words
(10_state.md R41). -/
theorem regOffset_of_writable {r : Reg} (h : writable r = true) :
    (0x04 ≤ regOffset r ∧ regOffset r ≤ 0x0C) ∨ (0x24 ≤ regOffset r ∧ regOffset r ≤ 0x34) := by
  cases r
  case ctrl | status | cmd => exact .inl (by decide)
  case digest0 | digest1 | digest2 | digest3 | digest4 => exact .inr (by decide)
  all_goals cases h

/-- No offset outside those two runs is a writable register's. -/
theorem not_writable_regAt {off : Nat} (h : off = 0x00 ∨ (0x10 ≤ off ∧ off ≤ 0x20) ∨ 0x38 ≤ off) :
    writable (regAt off) = false := by
  rw [← Bool.not_eq_true]
  intro hw
  have hne : regAt off ≠ .reserved := by
    intro hres
    rw [hres] at hw
    cases hw
  have hoff : off = regOffset (regAt off) := off_eq_of_regAt off _ rfl hne
  have := regOffset_of_writable hw
  omega

/-- Settles O40: the offsets of its writes hold no writable register, and its reads are of `reserved`,
which reads as 0. -/
theorem readOnlyAndReservedIgnoreWrites : Obligations.ReadOnlyAndReservedIgnoreWrites := by
  intro s v off rest hr h4 hlt
  constructor
  · intro hoff hp
    have hw : writable (regAt off) = false := not_writable_regAt hoff
    rw [step_write_at s off v rest hr h4 hlt (ne_cmd_of_not_writable hw) hp,
      afterWrite_of_not_writable hw]
    rfl
  · intro hres hp
    rw [step_read_at s off rest hr h4 hlt hp, regAt_of_reservedOffset hres]
    rfl

end Sys2Proof.Machine
end

section
/-! SUPPORT. The decoder and the encoder against each other (30_encoding.md R83, R84, R85, R87): a word
is put together from its three fields, so each row of the opcode map decodes exactly its own words. -/

namespace Sys2Proof.Machine

open Laws.LegalEncoding (encodeFields_toNat opcField_encodeFields rsvField_encodeFields
  dataField_encodeFields)

/-! ### The fields of a word -/

theorem opcField_toNat (w : Word) : (opcField w).toNat = w.toNat / 2 ^ 28 := by
  rw [BitVec.extractLsb'_toNat, Nat.shiftRight_eq_div_pow]
  omega

theorem rsvField_toNat (w : Word) : (rsvField w).toNat = w.toNat / 2 ^ 8 % 2 ^ 20 := by
  rw [BitVec.extractLsb'_toNat, Nat.shiftRight_eq_div_pow]

theorem dataField_toNat (w : Word) : (dataField w).toNat = w.toNat % 2 ^ 8 := by
  rw [BitVec.extractLsb'_toNat, Nat.shiftRight_zero]

/-- A word with `RSV` = 0 is the F1 word of its other two fields (30_encoding.md R80). -/
theorem encodeFields_of_rsvField {w : Word} (h : rsvField w = 0#20) :
    encodeFields (opcField w) (dataField w) = w := by
  have hrsv : w.toNat / 2 ^ 8 % 2 ^ 20 = 0 := by rw [← rsvField_toNat, h]; rfl
  apply BitVec.eq_of_toNat_eq
  rw [encodeFields_toNat, opcField_toNat, dataField_toNat]
  omega

/-- The operand stands in the low bits of the word, so it is added to the row's own word. -/
theorem encodeFields_eq_add (opc : BitVec 4) (data : Byte) :
    encodeFields opc data = encodeFields opc 0#8 + data.zeroExtend 32 := by
  have := opc.isLt; have := data.isLt
  apply BitVec.eq_of_toNat_eq
  rw [BitVec.toNat_add, encodeFields_toNat, encodeFields_toNat, BitVec.zeroExtend,
    BitVec.toNat_setWidth, BitVec.toNat_ofNat]
  omega

/-! ### The rows of the opcode map -/

theorem decodePlain_eq_ok_iff (w : Word) (i j : Instr) :
    decodePlain w i = .ok j ↔ rsvField w = 0#20 ∧ dataField w = 0#8 ∧ i = j := by
  unfold decodePlain
  split
  · simp_all
  · split <;> simp_all

theorem decodeData_eq_ok_iff (w : Word) (f : Byte → Instr) (j : Instr) :
    decodeData w f = .ok j ↔ rsvField w = 0#20 ∧ f (dataField w) = j := by
  unfold decodeData
  split <;> simp_all

/-- A row without an operand answers only its own word. -/
theorem eq_encode_of_decodePlain {w : Word} {opc : BitVec 4} {i j : Instr}
    (hi : encode i = encodeFields opc 0#8) (ho : (opcField w).toNat = opc.toNat)
    (h : decodePlain w i = .ok j) : w = encode j := by
  obtain ⟨hrsv, hdata, rfl⟩ := (decodePlain_eq_ok_iff w i j).1 h
  rw [hi, ← BitVec.eq_of_toNat_eq ho, ← hdata, encodeFields_of_rsvField hrsv]

/-- A row with an operand answers only its own words, with the operand they hold. -/
theorem eq_encode_of_decodeData {w : Word} (opc : BitVec 4) {f : Byte → Instr} {j : Instr}
    (hf : ∀ b, encode (f b) = encodeFields opc b) (ho : (opcField w).toNat = opc.toNat)
    (h : decodeData w f = .ok j) : w = encode j := by
  obtain ⟨hrsv, rfl⟩ := (decodeData_eq_ok_iff w f j).1 h
  rw [hf, ← BitVec.eq_of_toNat_eq ho, encodeFields_of_rsvField hrsv]

/-! ### Decode and encode -/

theorem decode_encode (i : Instr) : decode (encode i) = .ok i := by
  cases i
  case encByte | decChar =>
    simp [decode, encode, opcField_encodeFields, decodeData_eq_ok_iff, rsvField_encodeFields,
      dataField_encodeFields]
  all_goals
    simp [decode, encode, opcField_encodeFields, decodePlain_eq_ok_iff, rsvField_encodeFields,
      dataField_encodeFields]

/-- The opcode picks the row, and the row answers only its own words. -/
theorem eq_encode_of_decode {w : Word} {i : Instr} (h : decode w = .ok i) : w = encode i := by
  unfold decode at h
  split at h
  case h_3 ho => exact eq_encode_of_decodeData 0x2#4 (fun _ => rfl) ho h
  case h_6 ho => exact eq_encode_of_decodeData 0x5#4 (fun _ => rfl) ho h
  case h_10 => cases h
  all_goals exact eq_encode_of_decodePlain rfl ‹_› h

/-- 30_encoding.md R87: decoding and encoding are inverse to each other. -/
theorem decode_eq_ok_iff (i : Instr) (w : Word) : decode w = .ok i ↔ w = encode i := by
  constructor
  · exact eq_encode_of_decode
  · rintro rfl
    exact decode_encode i

/-! ### Legal words -/

theorem legalWord_encode (i : Instr) : legalWord (encode i) = true := by
  have hi : Laws.LegalEncoding.Statement i := by
    cases i
    case nop => exact Laws.LegalEncoding.nop
    case encStart => exact Laws.LegalEncoding.encStart
    case encByte b => exact Laws.LegalEncoding.encByte b
    case encFlush => exact Laws.LegalEncoding.encFlush
    case decStart => exact Laws.LegalEncoding.decStart
    case decChar c => exact Laws.LegalEncoding.decChar c
    case decEnd => exact Laws.LegalEncoding.decEnd
    case trunc => exact Laws.LegalEncoding.trunc
    case sreset => exact Laws.LegalEncoding.sreset
  exact hi.1

/-- The check on form by the word's numeric fields (30_encoding.md R84). -/
theorem legalWord_iff (w : Word) :
    legalWord w = true ↔
      (w.toNat / 2 ^ 28 ≤ 7 ∨ w.toNat / 2 ^ 28 = 15) ∧ w.toNat / 2 ^ 8 % 2 ^ 20 = 0 ∧
        (w.toNat / 2 ^ 28 = 2 ∨ w.toNat / 2 ^ 28 = 5 ∨ w.toNat % 2 ^ 8 = 0) := by
  rw [← opcField_toNat, ← rsvField_toNat, ← dataField_toNat]
  simp [legalWord, opcAssigned, opcTakesData, ← BitVec.toNat_inj, and_assoc, or_assoc]

/-- A legal word is in a row of the opcode map, and meets that row's checks. -/
theorem exists_decode_of_legalWord {w : Word} (h : legalWord w = true) : ∃ i, decode w = .ok i := by
  obtain ⟨hopc, hbits, hdata⟩ := (legalWord_iff w).1 h
  rw [← opcField_toNat] at hopc hdata
  rw [← dataField_toNat] at hdata
  have hrsv : rsvField w = 0#20 := BitVec.eq_of_toNat_eq ((rsvField_toNat w).trans hbits)
  have hplain (h2 : (opcField w).toNat ≠ 2) (h5 : (opcField w).toNat ≠ 5) (i : Instr) :
      ∃ j, decodePlain w i = .ok j :=
    ⟨i, (decodePlain_eq_ok_iff w i i).2
      ⟨hrsv, BitVec.eq_of_toNat_eq ((hdata.resolve_left h2).resolve_left h5), rfl⟩⟩
  unfold decode
  split
  case h_3 | h_6 => exact ⟨_, (decodeData_eq_ok_iff w _ _).2 ⟨hrsv, rfl⟩⟩
  case h_10 =>
    simp only [imp_false] at *
    omega
  all_goals exact hplain (by omega) (by omega) _

theorem exists_decode_iff_legalWord (w : Word) : (∃ i, decode w = .ok i) ↔ legalWord w = true := by
  constructor
  · rintro ⟨i, hi⟩
    rw [eq_encode_of_decode hi]
    exact legalWord_encode i
  · exact exists_decode_of_legalWord

/-- A `CMD` write of a word that is no command (30_encoding.md R85; 60_exceptions.md R174). -/
theorem execCommandWord_of_no_command {w : Word} (h : ∀ i, decode w ≠ .ok i) (s : State) :
    execCommandWord w s = .next (s.raise .illegal) := by
  cases hd : decode w with
  | error e => exact execCommandWord_of_error hd s
  | ok i => exact absurd hd (h i)

/-- Settles O5: each row of the opcode map decodes exactly its own words, and a `CMD` write executes what
its word decodes to. -/
theorem decodeEncodeAgree : Obligations.DecodeEncodeAgree := by
  refine ⟨decode_eq_ok_iff, rfl, rfl, encodeFields_eq_add 0x2#4, rfl, rfl, encodeFields_eq_add 0x5#4,
    rfl, rfl, rfl, ?_, ?_⟩
  · exact fun i s => execCommandWord_of_ok (decode_encode i) s
  · intro w s h
    exact execCommandWord_of_no_command (fun i hd => h i (eq_encode_of_decode hd)) s

/-- Settles O4: the words that decode are the legal ones, and legality is a check of the numeric fields. -/
theorem legalWordsAreExactlyTheCommands : Obligations.LegalWordsAreExactlyTheCommands := by
  intro w
  refine ⟨(exists_decode_iff_legalWord w).trans (legalWord_iff w), (exists_decode_iff_legalWord w).symm,
    ?_, ?_⟩
  · intro hlo hhi
    rw [← Bool.not_eq_true, legalWord_iff]
    omega
  · intro s h
    refine execCommandWord_of_no_command (fun i hd => ?_) s
    exact Bool.false_ne_true (h.symm.trans ((exists_decode_iff_legalWord w).1 ⟨i, hd⟩))

end Sys2Proof.Machine
end

section
/-! SUPPORT. The encoder's commands (40_encoder.md R100, R102, R103, R104): which outcome the mode, the
unread output and the pending count select, and the block it leaves written out field by field. -/

namespace Sys2Proof.Machine

/-! ### The alphabet -/

theorem alphabet_toNat_of_le {g : Group} (h : g.toNat ≤ 25) :
    (alphabet g).toNat = 0x41 + g.toNat := by
  rw [alphabet, if_pos h, BitVec.toNat_ofNat]
  omega

theorem alphabet_toNat_of_ge {g : Group} (h : 26 ≤ g.toNat) :
    (alphabet g).toNat = 0x32 + (g.toNat - 26) := by
  have := g.isLt
  rw [alphabet, if_neg (by omega), BitVec.toNat_ofNat]
  omega

/-- Settles O11: the code of a group in each of its two ranges, and the 32 codes listed. -/
theorem alphabetIsTheThirtyTwoCodes : Obligations.AlphabetIsTheThirtyTwoCodes := by
  refine ⟨by decide, fun g => ⟨?_, ?_⟩⟩
  · exact alphabet_toNat_of_le
  · exact alphabet_toNat_of_ge

/-! ### The outcomes of `ENC_BYTE` and `ENC_FLUSH` -/

section
variable {s : State}

theorem exec_encByte_of_wrong_mode (b : Byte) (hm : s.block.mode ≠ Mode.enc) :
    exec (.encByte b) s = .next (s.raise .seq) := by
  simpa [hm] using exec_encByte_cases b s

theorem exec_encByte_of_unread (b : Byte) (hm : s.block.mode = Mode.enc)
    (hu : s.block.outUnread = true) : exec (.encByte b) s = .next (s.raise .ovr) := by
  simpa [hm, hu] using exec_encByte_cases b s

theorem exec_encByte_of_read (b : Byte) (hm : s.block.mode = Mode.enc)
    (hu : s.block.outUnread = false) :
    exec (.encByte b) s = .next (s.setBlock (encodeByte b s.block)) := by
  simpa [hm, hu] using exec_encByte_cases b s

theorem exec_encFlush_of_wrong_mode (hm : s.block.mode ≠ Mode.enc) :
    exec .encFlush s = .next (s.raise .seq) := by
  simpa [hm] using exec_encFlush_cases s

theorem exec_encFlush_of_empty (hm : s.block.mode = Mode.enc) (hc : s.block.acc.cnt = 0#4) :
    exec .encFlush s = .next (s.setBlock s.block.endOp) := by
  simpa [hm, hc] using exec_encFlush_cases s

theorem exec_encFlush_of_unread (hm : s.block.mode = Mode.enc) (hc : s.block.acc.cnt ≠ 0#4)
    (hu : s.block.outUnread = true) : exec .encFlush s = .next (s.raise .ovr) := by
  simpa [hm, hc, hu] using exec_encFlush_cases s

theorem exec_encFlush_of_read (hm : s.block.mode = Mode.enc) (hc : s.block.acc.cnt ≠ 0#4)
    (hu : s.block.outUnread = false) :
    exec .encFlush s = .next ((s.setBlock
      (flushPending (Config.freeValue 5 s.freeIdx) s.block)).advanceFree
      (flushFree s.block.acc)) := by
  simpa [hm, hc, hu] using exec_encFlush_cases s

end

/-! ### `ENC_START` -/

/-- Settles O12: `ENC_START` enters `ENC` and leaves `OUT_UNREAD`, so output left unread still refuses
the next byte. -/
theorem encStartBeginsAnEncode : Obligations.EncStartBeginsAnEncode := by
  refine ⟨decode_encode .encStart, fun s => rfl, ?_, ⟨_, rfl, by decide, by decide⟩⟩
  intro s t b hu ht
  cases (exec_encStart s).symm.trans ht
  exact exec_encByte_of_unread b rfl hu

/-! ### `ENC_BYTE` -/

theorem decode_encByte_word (b : Byte) :
    decode (0x20000000#32 + b.setWidth 32) = .ok (.encByte b) :=
  (decode_eq_ok_iff _ _).2 (encodeFields_eq_add 0x2#4 b).symm

/-- Settles O13: fewer than 2 bits pending make one group with the new byte, 2 or more make two. `keepBits`
narrows what is kept to the 12 bits of `BUF` just as the statement writes it, so the proof needs no upper
bound on the count. -/
theorem encByteEmitsTheHighestGroups : Obligations.EncByteEmitsTheHighestGroups := by
  refine ⟨?_, ⟨_, _, rfl, rfl, by decide, by decide⟩⟩
  intro b s
  refine ⟨decode_encByte_word b, exec_encByte_of_wrong_mode b, exec_encByte_of_unread b, ?_⟩
  intro hm hu
  dsimp only
  rw [exec_encByte_of_read b hm hu]
  constructor
  · intro hn
    rw [encodeByte_of_lt b s.block (by omega), joinByte_toNat, groupAt_eq]
    rfl
  · intro hn _
    rw [encodeByte_of_le b s.block (by omega), joinByte_toNat, groupAt_eq, groupAt_eq]
    rfl

/-! ### `ENC_FLUSH` -/

/-- With at most 5 bits pending the padded group is the rule's own, and no free value is used
(40_encoder.md R104). -/
theorem exec_encFlush_of_pending {s : State} (hm : s.block.mode = Mode.enc)
    (hc : s.block.acc.cnt ≠ 0#4) (hu : s.block.outUnread = false)
    (h5 : s.block.acc.cnt.toNat ≤ 5) :
    exec .encFlush s = .next (s.setBlock (s.block.emitOne (alphabet (BitVec.ofNat 5
      (s.block.acc.buf.toNat * 2 ^ (5 - s.block.acc.cnt.toNat) % 2 ^ 5)))).endOp) := by
  rw [exec_encFlush_of_read hm hc hu, flushPending, flushGroup_of_le _ _ h5, flushFree_of_le _ h5]
  rfl

/-- Settles O14: one outcome for each of the four branches, the last by the padded group. -/
theorem encFlushEmitsThePaddedGroup : Obligations.EncFlushEmitsThePaddedGroup := by
  refine ⟨decode_encode .encFlush, ?_, ⟨_, _, rfl, rfl, by decide⟩⟩
  intro s
  exact ⟨exec_encFlush_of_wrong_mode, exec_encFlush_of_empty, exec_encFlush_of_unread,
    exec_encFlush_of_pending⟩

end Sys2Proof.Machine
end

section
/-! SUPPORT. The decoder's commands (41_decoder.md R120, R122, R123, R124): the character map range by
range, which outcome the mode, the character, the pending count and the unread output select, and the
block it leaves written out field by field. -/

namespace Sys2Proof.Machine

/-! ### The character map -/

section
variable {c : Byte}

theorem lookup_of_upper (h : 0x41 ≤ c.toNat ∧ c.toNat ≤ 0x5A) :
    lookup c = some (BitVec.ofNat 5 (c.toNat - 0x41)) := by
  rw [lookup, if_pos h]

theorem lookup_of_lower (h : 0x61 ≤ c.toNat ∧ c.toNat ≤ 0x7A) :
    lookup c = some (BitVec.ofNat 5 (c.toNat - 0x61)) := by
  rw [lookup, if_neg (by omega), if_pos h]

theorem lookup_of_digit (h : 0x32 ≤ c.toNat ∧ c.toNat ≤ 0x37) :
    lookup c = some (BitVec.ofNat 5 (c.toNat - 0x32 + 26)) := by
  rw [lookup, if_neg (by omega), if_neg (by omega), if_pos h]

theorem lookup_of_unknown (hu : ¬(0x41 ≤ c.toNat ∧ c.toNat ≤ 0x5A))
    (hl : ¬(0x61 ≤ c.toNat ∧ c.toNat ≤ 0x7A)) (hd : ¬(0x32 ≤ c.toNat ∧ c.toNat ≤ 0x37)) :
    lookup c = none := by
  rw [lookup, if_neg hu, if_neg hl, if_neg hd]

end

/-- The value of a character, read as a number, is the number its range gives (41_decoder.md R120). -/
theorem map_toNat_of_eq_ofNat {o : Option Group} {n : Nat} (h : o = some (BitVec.ofNat 5 n))
    (hn : n < 32) : o.map BitVec.toNat = some n := by
  rw [h, Option.map_some, BitVec.toNat_ofNat, Nat.mod_eq_of_lt hn]

/-- The character map inverts the alphabet: the groups to 25 come back from the upper case range, the
others from the digits (41_decoder.md R120). -/
theorem lookup_alphabet (g : Group) : lookup (alphabet g) = some g := by
  have := g.isLt
  by_cases hg : g.toNat ≤ 25
  · have hc : (alphabet g).toNat = 0x41 + g.toNat := alphabet_toNat_of_le hg
    rw [lookup_of_upper (by omega), hc, Nat.add_sub_cancel_left, BitVec.ofNat_toNat,
      BitVec.setWidth_eq]
  · have hc : (alphabet g).toNat = 0x32 + (g.toNat - 26) := alphabet_toNat_of_ge (by omega)
    rw [lookup_of_digit (by omega), hc, Nat.add_sub_cancel_left, Nat.sub_add_cancel (by omega),
      BitVec.ofNat_toNat, BitVec.setWidth_eq]

/-- Settles O17: one equation of the map for each range, and the inverse of the alphabet. -/
theorem lookupIsTheCharacterMap : Obligations.LookupIsTheCharacterMap := by
  refine ⟨fun c => ⟨?_, ?_, ?_, lookup_of_unknown⟩, lookup_alphabet⟩
  · intro hlo hhi
    exact map_toNat_of_eq_ofNat (lookup_of_upper ⟨hlo, hhi⟩) (by omega)
  · intro hlo hhi
    exact map_toNat_of_eq_ofNat (lookup_of_lower ⟨hlo, hhi⟩) (by omega)
  · intro hlo hhi
    exact map_toNat_of_eq_ofNat (lookup_of_digit ⟨hlo, hhi⟩) (by omega)

/-! ### The outcomes of `DEC_CHAR` and `DEC_END` -/

section
variable {s : State}

theorem exec_decChar_of_wrong_mode (c : Byte) (hm : s.block.mode ≠ Mode.dec) :
    exec (.decChar c) s = .next (s.raise .seq) := by
  simpa [hm] using exec_decChar_cases c s

theorem exec_decChar_of_unknown {c : Byte} (hm : s.block.mode = Mode.dec) (hl : lookup c = none) :
    exec (.decChar c) s = .next (s.setBlock (skipChar s.block)) := by
  simpa [hm, hl] using exec_decChar_cases c s

theorem exec_decChar_of_unread {c : Byte} {x : Group} (hm : s.block.mode = Mode.dec)
    (hl : lookup c = some x) (hc : 3 ≤ s.block.acc.cnt.toNat) (hu : s.block.outUnread = true) :
    exec (.decChar c) s = .next (s.raise .ovr) := by
  simpa [hm, hl, hc, hu] using exec_decChar_cases c s

theorem exec_decChar_of_known {c : Byte} {x : Group} (hm : s.block.mode = Mode.dec)
    (hl : lookup c = some x) (h : ¬(3 ≤ s.block.acc.cnt.toNat ∧ s.block.outUnread = true)) :
    exec (.decChar c) s = .next (s.setBlock (decodeGroup x s.block)) := by
  simpa [hm, hl, ← and_assoc, h] using exec_decChar_cases c s

theorem exec_decEnd_of_wrong_mode (hm : s.block.mode ≠ Mode.dec) :
    exec .decEnd s = .next (s.raise .seq) := by
  simpa [hm] using exec_decEnd_cases s

theorem exec_decEnd_of_dec (hm : s.block.mode = Mode.dec) :
    exec .decEnd s = .next (s.setBlock (endDecode s.block)) := by
  simpa [hm] using exec_decEnd_cases s

end

/-! ### `DEC_START` -/

/-- Settles O18: `DEC_START` is `startOp` in every state, and `startOp` writes just these fields. -/
theorem decStartBeginsADecode : Obligations.DecStartBeginsADecode :=
  ⟨decode_encode .decStart, exec_decStart, ⟨_, exec_decStart State.reset, by decide⟩⟩

/-! ### `DEC_CHAR` -/

theorem decode_decChar_word (c : Byte) :
    decode (0x50000000#32 + c.setWidth 32) = .ok (.decChar c) :=
  (decode_eq_ok_iff _ _).2 (encodeFields_eq_add 0x5#4 c).symm

/-- A skipped character leaves its count, and its record only under `STRICT` (41_decoder.md R123;
60_exceptions.md R177). -/
theorem skipChar_eq (b : Block) : skipChar b = { b with
    counters := { b.counters with skip := satInc b.counters.skip 1 }
    err := if b.strict then recordError .badchar b.err else b.err } := by
  unfold skipChar
  split <;> rfl

/-- Settles O19: an unknown character is `skipChar`; a known one is refused, or `decodeGroup`, which emits
exactly when 3 bits or more are pending. `keepBits` narrows what is kept just as the statement writes it,
so the proof needs no upper bound on the count. -/
theorem decCharSkipsOrShiftsIn : Obligations.DecCharSkipsOrShiftsIn := by
  refine ⟨?_, ⟨_, _, _, rfl, rfl, by decide, by decide, rfl, by decide, by decide⟩⟩
  intro c s
  refine ⟨decode_decChar_word c, exec_decChar_of_wrong_mode c, ?_, ?_⟩
  · intro hm hl
    rw [exec_decChar_of_unknown hm hl, skipChar_eq]
    rfl
  · intro x hm hl
    refine ⟨exec_decChar_of_unread hm hl, ?_, ?_⟩
    · intro hc hu
      have hn : s.block.acc.cnt.toNat + 5 - 8 = s.block.acc.cnt.toNat - 3 := by omega
      rw [exec_decChar_of_known hm hl (by simp [hu]), decodeGroup_of_le x s.block hc,
        joinGroup_toNat, byteAt_eq, hn]
      rfl
    · intro hc
      rw [exec_decChar_of_known hm hl (by omega), decodeGroup_of_lt x s.block hc, joinGroup_toNat]
      rfl

/-! ### `DEC_END` -/

/-- An ended decode discards the pending bits, and records `EMPTY` when it emitted nothing
(41_decoder.md R124; 60_exceptions.md R178). -/
theorem endDecode_eq (b : Block) : endDecode b = { b with
    mode := Mode.idle
    acc := ⟨0#12, 0#4⟩
    err := if b.counters.output = 0#32 then recordError .empty b.err else b.err } := by
  unfold endDecode
  split <;> rfl

/-- Settles O20: refused outside `DEC`, else `endDecode`; the example is one run of three commands. -/
theorem decEndDiscardsAndReportsEmpty : Obligations.DecEndDiscardsAndReportsEmpty := by
  refine ⟨decode_encode .decEnd, ?_, ⟨_, rfl, by decide, by decide⟩⟩
  intro s
  refine ⟨exec_decEnd_of_wrong_mode, ?_⟩
  intro hm
  rw [exec_decEnd_of_dec hm, endDecode_eq]
  rfl

end Sys2Proof.Machine
end

section
/-! SUPPORT. Dynamic truncation (42_truncation.md R140, R141): each step of the truncation function as
arithmetic of naturals, and the registers that show its results. -/

namespace Sys2Proof.Machine

/-! ### The digest bytes -/

/-- The digest words listed in order, `DIGEST0` first (10_state.md R34). -/
theorem Digest.getD_words (d : Digest) {k : Nat} (hk : k < 5) :
    [d.w0, d.w1, d.w2, d.w3, d.w4].getD k 0#32 = d.word k := by
  interval_cases k <;> rfl

theorem digestByte_toNat (d : Digest) {i : Nat} (hi : i < 20) :
    (digestByte d i).toNat =
      ([d.w0, d.w1, d.w2, d.w3, d.w4].getD (i / 4) 0#32).toNat / 2 ^ (8 * (3 - i % 4)) % 2 ^ 8 := by
  rw [digestByte_eq d hi, BitVec.toNat_ofNat, Digest.getD_words d (by omega)]

/-! ### The truncation function -/

theorem truncOffset_toNat (d : Digest) :
    (truncOffset d).toNat = (digestByte d 19).toNat % 16 := by
  rw [truncOffset, BitVec.toNat_setWidth]

/-- `P` drops the top bit of the byte at the offset and joins three bytes to it, first byte highest
(42_truncation.md R140). -/
theorem truncP_toNat (d : Digest) : (truncP d).toNat =
    (digestByte d (truncOffset d).toNat).toNat % 2 ^ 7 * 2 ^ 24 +
      (digestByte d ((truncOffset d).toNat + 1)).toNat * 2 ^ 16 +
      (digestByte d ((truncOffset d).toNat + 2)).toNat * 2 ^ 8 +
      (digestByte d ((truncOffset d).toNat + 3)).toNat := by
  simp only [truncP, append_toNat, BitVec.toNat_setWidth]
  omega

/-- The modulus is below `2 ^ 20`, so `TR_CODE` narrows nothing away (10_state.md R38). -/
theorem truncCode_toNat (p : BitVec 31) : (truncCode p).toNat = p.toNat % 1000000 := by
  rw [truncCode, Config.modulus, BitVec.toNat_ofNat]
  omega

theorem truncDigit_toNat (code : BitVec 20) (i : Nat) :
    (truncDigit code i).toNat = 0x30 + code.toNat / 10 ^ (5 - i) % 10 := by
  rw [truncDigit, BitVec.toNat_ofNat]
  omega

/-- Settles O22: offset, `P`, code and digits each follow from the one before, and the four bytes `P` is
made of are digest bytes because the offset is at most 15. -/
theorem truncationFunctionIsAsStated : Obligations.TruncationFunctionIsAsStated := by
  intro d D off P code
  have hD : ∀ i < 20, (digestByte d i).toNat = D i := fun i hi => digestByte_toNat d hi
  have hoff : (truncOffset d).toNat = off := by rw [truncOffset_toNat, hD 19 (by decide)]
  have hlt : off < 16 := Nat.mod_lt _ (by decide)
  have hP : (truncP d).toNat = P := by
    rw [truncP_toNat, hoff, hD off (by omega), hD (off + 1) (by omega), hD (off + 2) (by omega),
      hD (off + 3) (by omega)]
  have hcode : (truncCode (truncP d)).toNat = code := by rw [truncCode_toNat, hP]
  have hdigits : (List.range 6).map (fun i => (truncDigit (truncCode (truncP d)) i).toNat) =
      (List.range 6).map fun i => 0x30 + code / 10 ^ (5 - i) % 10 := by
    simp only [truncDigit_toNat, hcode]
  exact ⟨hoff, hP, hcode, hdigits⟩

/-! ### `TRUNC` -/

/-- `TR_P` is 31 bits wide, so the top bit of its register is 0 (10_state.md R37). -/
theorem trPWord_bit31 (r : TruncResult) : (trPWord r).getLsbD 31 = false := by
  rw [trPWord, BitVec.getLsbD_setWidth, BitVec.getLsbD_of_ge _ _ (by decide), Bool.and_false]

/-- `TR_ASCII1` ends in two zero bytes (10_state.md R39). -/
theorem trAscii1Word_eq (r : TruncResult) : trAscii1Word r = r.d4 ++ r.d5 ++ 0#8 ++ 0#8 := by
  apply BitVec.eq_of_toNat_eq
  simp only [trAscii1Word, append_toNat, BitVec.toNat_ofNat]
  omega

/-- Settles O23: in every state `TRUNC` is `setTrunc` of the digest's results; the example is one run of
six accesses. -/
theorem truncWritesTheResults : Obligations.TruncWritesTheResults := by
  refine ⟨decode_encode .trunc, ?_, ⟨_, rfl, by decide, by decide, by decide, by decide, by decide⟩⟩
  intro s
  exact ⟨_, exec_trunc s, rfl, rfl, rfl, trPWord_bit31 _, rfl, rfl, trAscii1Word_eq _⟩

end Sys2Proof.Machine
end

section
/-! SUPPORT. The control commands `NOP` and `SRESET` (43_control.md R160, R161): their only words, and
what the registers read after `SRESET`. -/

namespace Sys2Proof.Machine

/-- An opcode without an operand has one legal word, so every other word with its OPC is illegal
(30_encoding.md R84, R85). -/
theorem legalWord_eq_false_of_same_opc {w v : Word} (hopc : w.toNat / 2 ^ 28 = v.toNat / 2 ^ 28)
    (hplain : v.toNat / 2 ^ 28 ≠ 2 ∧ v.toNat / 2 ^ 28 ≠ 5) (hv : v.toNat % 2 ^ 28 = 0) (hne : w ≠ v) :
    legalWord w = false := by
  rw [← Bool.not_eq_true, legalWord_iff]
  rintro ⟨-, hrsv, hdata⟩
  have hw : w.toNat % 2 ^ 28 = 0 := by omega
  exact hne (BitVec.eq_of_toNat_eq (by omega))

/-- A register shows state, which reset clears, or a constant, of which only `ID`'s is not 0
(10_state.md R41; 70_reset_and_hazards.md R201). -/
theorem readReg_reset_of_ne_id {r : Reg} (h : r ≠ .id) : readReg Block.reset r = 0#32 := by
  cases r
  case id => exact absurd rfl h
  all_goals rfl

/-! ### `NOP` -/

/-- Settles O28: `NOP` is the one legal word with OPC 0, and its next state is the state itself. -/
theorem nopChangesNothing : Obligations.NopChangesNothing :=
  ⟨decode_encode .nop, exec_nop, fun _ ho => legalWord_eq_false_of_same_opc ho (by decide) rfl⟩

/-! ### `SRESET` -/

/-- Settles O2: `SRESET` is the one legal word with OPC 0xF, and it sets the block to its reset value in
every state; the example is one run of three commands. -/
theorem sresetGivesTheResetState : Obligations.SresetGivesTheResetState := by
  refine ⟨decode_encode .sreset, exec_sreset, fun _ => readReg_reset_of_ne_id, ?_, fun _ => rfl,
    ⟨_, _, rfl, by decide, exec_sreset _, readReg_reset_of_ne_id (by decide)⟩⟩
  exact fun _ ho => legalWord_eq_false_of_same_opc ho (by decide) rfl

end Sys2Proof.Machine
end

section
/-! SUPPORT. Errors (60_exceptions.md R172, R174, R175, R176): what recording one does to the error
fields and to `STATUS`, and which words and commands are refused. -/

namespace Sys2Proof.Machine

/-! ### Illegal words -/

/-- Settles O8: each of the three kinds fails the check on form, and a word that fails it is refused with
`ILLEGAL` in every state. -/
theorem illegalWordsAreRefused : Obligations.IllegalWordsAreRefused := by
  intro w s h
  have hillegal : legalWord w = false := by
    rw [← Bool.not_eq_true, legalWord_iff]
    omega
  obtain ⟨-, -, -, hrefused⟩ := legalWordsAreExactlyTheCommands w
  exact hrefused s hillegal

/-! ### Recording an error -/

/-- The causes are numbered 1 to 5 (60_exceptions.md R171). -/
theorem causeCode_bounds (c : Cause) : 1 ≤ (causeCode c).toNat ∧ (causeCode c).toNat ≤ 5 := by
  cases c <;> decide

/-- Recording an error field by field: of the five bits, which `STATUS` shows as its bits 8 to 12, the one
that stands at 7 + k for the code k of the cause becomes 1 (60_exceptions.md R172). -/
theorem recordError_eq (c : Cause) (e : Errors) : recordError c e =
    { illegal := e.illegal || decide (7 + (causeCode c).toNat = 8)
      seq := e.seq || decide (7 + (causeCode c).toNat = 9)
      ovr := e.ovr || decide (7 + (causeCode c).toNat = 10)
      badchar := e.badchar || decide (7 + (causeCode c).toNat = 11)
      empty := e.empty || decide (7 + (causeCode c).toNat = 12)
      last := causeCode c } := by
  cases c <;> simp [recordError, causeCode]

/-- The mask of all bits but `LAST_ERR`, bit by bit (10_state.md R25). -/
theorem notLastErrMask_bit {i : Nat} (hi : i < 32) :
    (0xFFF0FFFF#32).getLsbD i = !decide (16 ≤ i ∧ i ≤ 19) := by
  interval_cases i <;> rfl

/-- `STATUS` after an error of code k: `LAST_ERR` is replaced by k and bit 7 + k is set; that bit is one
of the five `ERR_*` bits, so every other field reads as before (60_exceptions.md R172). -/
theorem statusWord_raise (c : Cause) (b : Block) : statusWord (b.raise c) =
    ((statusWord b &&& 0xFFF0FFFF#32) ||| BitVec.ofNat 32 (2 ^ (7 + (causeCode c).toNat))) |||
      BitVec.ofNat 32 ((causeCode c).toNat * 2 ^ 16) := by
  have hk := causeCode_bounds c
  apply BitVec.eq_of_getLsbD_eq
  intro i hi
  rw [BitVec.getLsbD_or, BitVec.getLsbD_or, BitVec.getLsbD_and, notLastErrMask_bit hi,
    BitVec.getLsbD_ofNat, BitVec.getLsbD_ofNat, Nat.testBit_two_pow, Nat.testBit_mul_two_pow,
    BitVec.testBit_toNat, statusWord_bit, statusWord_bit, Block.raise_err, recordError_eq]
  split
  case h_14 =>
    simp only [imp_false] at *
    have hset : 7 + (causeCode c).toNat ≠ i := by omega
    have hcode : 16 ≤ i → (causeCode c).getLsbD (i - 16) = false := fun _ =>
      BitVec.getLsbD_of_ge _ _ (by omega)
    simpa [hset] using fun _ => hcode
  all_goals simp <;> omega

/-- Settles O29: `Block.raise` writes the error fields alone, and the statement's k is `causeCode`. -/
theorem raisingSetsOneBitAndTheCode : Obligations.RaisingSetsOneBitAndTheCode := by
  intro c b k
  have hk : k = (causeCode c).toNat := by cases c <;> rfl
  rw [hk]
  exact ⟨statusWord_raise c b, rfl⟩

/-! ### Refused commands -/

/-- Settles O30: each refusal is the outcome lemma of its command, the four commands that refuse nothing
leave the error fields, and `SRESET` clears them. -/
theorem wrongModeAndUnreadOutputRefuse : Obligations.WrongModeAndUnreadOutputRefuse := by
  intro s b c
  refine ⟨fun hm => ⟨exec_encByte_of_wrong_mode b hm, exec_encFlush_of_wrong_mode hm⟩,
    fun hm => ⟨exec_decChar_of_wrong_mode c hm, exec_decEnd_of_wrong_mode hm⟩, fun hu => ⟨?_, ?_⟩,
    ?_, ⟨_, exec_sreset s, rfl⟩⟩
  · intro hm
    refine ⟨exec_encByte_of_unread b hm hu, fun hpos => exec_encFlush_of_unread hm ?_ hu⟩
    intro hc
    rw [hc] at hpos
    exact absurd hpos (by decide)
  · intro hm hc hl
    obtain ⟨x, hx⟩ := Option.ne_none_iff_exists'.1 hl
    exact exec_decChar_of_unread hm hx hc hu
  · intro i hi
    simp only [List.mem_cons, List.not_mem_nil, or_false] at hi
    rcases hi with rfl | rfl | rfl | rfl <;> exact ⟨_, rfl, rfl⟩

end Sys2Proof.Machine
end

section
/-! SUPPORT. Both resets (70_reset_and_hazards.md R200, R201), and the observation of a host program
(R212): a program of legal accesses brings every continuation of it to one state. -/

namespace Sys2Proof.Machine

/-! ### Resets -/

theorem step_assertReset {s : State} {es : List Event} (h : s.pending = .assertReset :: es) :
    step s = .next (((s.setPending es).setBlock Block.reset).setInReset true) := by
  simp only [step, h, performEvent]

theorem step_releaseReset {s : State} {es : List Event} (h : s.pending = .releaseReset :: es) :
    step s = .next ((s.setPending es).setInReset false) := by
  simp only [step, h, performEvent]

/-- Hardware reset asserted and then released leaves the block at its reset values
(70_reset_and_hazards.md R200, R201). -/
theorem runSteps_hardwareReset {s : State} {es : List Event}
    (h : s.pending = .assertReset :: .releaseReset :: es) :
    runSteps 2 s = .next (((s.setPending es).setBlock Block.reset).setInReset false) := by
  rw [runSteps_succ (step_assertReset h), runSteps_succ (step_releaseReset rfl)]
  rfl

/-- Settles O1: the reset values are those of `Block.reset`, which both resets put in place of the
block. -/
theorem bothResetsLeaveTheStatedValues : Obligations.BothResetsLeaveTheStatedValues := by
  refine ⟨?_, rfl, rfl, rfl, rfl, rfl, rfl, rfl, rfl, fun s => ⟨_, exec_sreset s, rfl⟩,
    fun s rest => ⟨_, runSteps_hardwareReset rfl, rfl, rfl, rfl⟩⟩
  intro r
  split
  next hid => rw [hid]; rfl
  next hne => exact readReg_reset_of_ne_id hne

/-! ### Host programs -/

/-- A program of legal accesses runs to its end, and a program that continues it goes on from the state
reached then, whatever the continuation is (20_memory.md R67; 70_reset_and_hazards.md R212). -/
theorem exists_runFrom_append (p : List Access) (hp : ∀ a ∈ p, a.legal = true) (b : Block) :
    ∃ t : State, t.inReset = false ∧
      runProgram p (State.reset.setBlock b) = .next (t.setPending []) ∧
      ∀ q, runFrom (p ++ q) b = runToEnd q.length (t.setPending (q.map Event.access)) := by
  obtain ⟨t, hr, hrun⟩ := runSteps_legal p hp (State.reset.setBlock b) rfl
  refine ⟨t, hr, hrun [], fun q => ?_⟩
  have hstart : (State.reset.setBlock b).withProgram (p ++ q) =
      (State.reset.setBlock b).setPending (p.map Event.access ++ q.map Event.access) := by
    simp [State.withProgram, State.setPending, State.setBlock, State.reset]
  rw [runFrom, List.length_append, hstart, runToEnd_add _ _ _ _ (hrun _)]

/-- Settles O58: after the legal accesses every continuation starts from the same state, so one step
there says what one more read, one more write or an illegal access does. -/
theorem hostProgramsAreObserved : Obligations.HostProgramsAreObserved := by
  refine ⟨fun b => rfl, ?_, by decide, by decide⟩
  intro p b hp
  obtain ⟨t, hr, hrun, happend⟩ := exists_runFrom_append p hp b
  have hend : runFrom p b = (t.setPending [], .completed) := by
    rw [← List.append_nil p]
    exact happend []
  have hone {a : Access} {u : State} (hstep : step (t.setPending [.access a]) = .next u) :
      runFrom (p ++ [a]) b = (u, .completed) := (happend [a]).trans (runToEnd_succ hstep)
  have hobs : observe p b = (t.reads, t.block) := by rw [observe, hend]; rfl
  refine ⟨by rw [programEnd, hend], ⟨_, hrun, rfl, hobs⟩, ?_, ?_, ?_⟩
  · intro off h4 hlt
    rw [hobs, observe, hone (step_read_at _ off [] hr h4 hlt rfl)]
    rfl
  · intro off v h4 hlt
    have hl : (⟨.write v, off, 4⟩ : Access).legal = true := (Access.legal_iff _).2 ⟨rfl, h4, hlt⟩
    obtain ⟨u, hwrite, -, -, hkeep⟩ := step_legal (t.setPending [.access _]) _ [] hr hl rfl
    rw [hobs, observe, hone hwrite]
    exact hkeep v rfl
  · intro a q hl
    have hfault : runFrom (p ++ a :: q) b =
        (t.setPending ((a :: q).map Event.access), .fault (.busError a)) :=
      (happend (a :: q)).trans (runToEnd_fault (step_illegal _ a _ hr hl rfl))
    rw [hobs, observe, programEnd, hfault]
    exact ⟨rfl, rfl⟩

end Sys2Proof.Machine
end

section
/-! SUPPORT. The accumulator and the counters after an accepted input, as arithmetic of the pending
count (the corner-case tables of 40_encoder.md R103 and 41_decoder.md R123): what the bounds, the
counting laws and the sequences rest on. -/

namespace Sys2Proof.Machine

/-- A counter never exceeds its maximum, so counting nothing leaves it (10_state.md R33). -/
theorem toNat_eq_min (w : Word) : w.toNat = min w.toNat Config.counterMax := by
  have := w.isLt
  rw [Config.counterMax]
  omega

section
variable (b : Byte) (x : Group) {blk : Block}

/-- The characters an accepted byte emits, and the bits it leaves pending (40_encoder.md R103). -/
theorem encodeByte_arith (h : blk.acc.cnt.toNat ≤ 4) :
    (encodeByte b blk).acc.cnt.toNat = (blk.acc.cnt.toNat + 8) % 5 ∧
    (encodeByte b blk).out.n.toNat = (blk.acc.cnt.toNat + 8) / 5 ∧
    (encodeByte b blk).counters.output.toNat =
      min (blk.counters.output.toNat + (blk.acc.cnt.toNat + 8) / 5) Config.counterMax := by
  rcases Nat.lt_or_ge blk.acc.cnt.toNat 2 with h2 | h2
  · have hone : (blk.acc.cnt.toNat + 8) / 5 = 1 := by omega
    rw [encodeByte_of_lt b blk h2, hone]
    exact ⟨(keepBits_cnt_toNat _ _ (by omega)).trans (by omega), rfl, satInc_toNat _ _⟩
  · have htwo : (blk.acc.cnt.toNat + 8) / 5 = 2 := by omega
    rw [encodeByte_of_le b blk h2, htwo]
    exact ⟨(keepBits_cnt_toNat _ _ (by omega)).trans (by omega), rfl, satInc_toNat _ _⟩

/-- The kept bits fit their count. -/
theorem encodeByte_buf_lt (h : blk.acc.cnt.toNat ≤ 4) :
    (encodeByte b blk).acc.buf.toNat < 2 ^ (encodeByte b blk).acc.cnt.toNat := by
  rcases Nat.lt_or_ge blk.acc.cnt.toNat 2 with h2 | h2
  · rw [encodeByte_of_lt b blk h2]
    exact keepBits_buf_lt _ _ (by omega)
  · rw [encodeByte_of_le b blk h2]
    exact keepBits_buf_lt _ _ (by omega)

/-- The bytes an accepted character emits, and the bits it leaves pending (41_decoder.md R123). -/
theorem decodeGroup_arith (h : blk.acc.cnt.toNat ≤ 7) :
    (decodeGroup x blk).acc.cnt.toNat = (blk.acc.cnt.toNat + 5) % 8 ∧
    (decodeGroup x blk).counters.output.toNat =
      min (blk.counters.output.toNat + (blk.acc.cnt.toNat + 5) / 8) Config.counterMax := by
  rcases Nat.lt_or_ge blk.acc.cnt.toNat 3 with h3 | h3
  · have hnone : (blk.acc.cnt.toNat + 5) / 8 = 0 := by omega
    rw [decodeGroup_of_lt x blk h3, hnone]
    exact ⟨(keepBits_cnt_toNat _ _ (by omega)).trans (by omega), toNat_eq_min _⟩
  · have hone : (blk.acc.cnt.toNat + 5) / 8 = 1 := by omega
    rw [decodeGroup_of_le x blk h3, hone]
    exact ⟨(keepBits_cnt_toNat _ _ (by omega)).trans (by omega), satInc_toNat _ _⟩

theorem decodeGroup_buf_lt (h : blk.acc.cnt.toNat ≤ 7) :
    (decodeGroup x blk).acc.buf.toNat < 2 ^ (decodeGroup x blk).acc.cnt.toNat := by
  rcases Nat.lt_or_ge blk.acc.cnt.toNat 3 with h3 | h3
  · rw [decodeGroup_of_lt x blk h3]
    exact keepBits_buf_lt _ _ (by omega)
  · rw [decodeGroup_of_le x blk h3]
    exact keepBits_buf_lt _ _ (by omega)

/-- An accepted character emits exactly when 3 bits or more were pending (41_decoder.md R123). -/
theorem decodeGroup_outUnread :
    (decodeGroup x blk).outUnread = (blk.outUnread || decide (3 ≤ blk.acc.cnt.toNat)) := by
  rcases Nat.lt_or_ge blk.acc.cnt.toNat 3 with h3 | h3
  · simp [decodeGroup_of_lt x blk h3, h3]
  · simp [decodeGroup_of_le x blk h3, h3]

end

/-- Settles O21: both tables are `encodeByte_arith` and `decodeGroup_arith`, row by row. -/
theorem accumulatorCountsFollowTheTables : Obligations.AccumulatorCountsFollowTheTables := by
  constructor
  · intro b s hm hu hc
    obtain ⟨hcnt, hn, -⟩ := encodeByte_arith b hc
    refine ⟨_, exec_encByte_of_read b hm hu, ?_⟩
    rw [State.setBlock_block, hcnt, hn]
    generalize s.block.acc.cnt.toNat = n at hc ⊢
    interval_cases n <;> rfl
  · intro c x s hl hm hu hc
    obtain ⟨hcnt, -⟩ := decodeGroup_arith x hc
    refine ⟨_, exec_decChar_of_known hm hl (by simp [hu]), ?_⟩
    rw [State.setBlock_block, hcnt, decodeGroup_outUnread, hu]
    generalize s.block.acc.cnt.toNat = n at hc ⊢
    interval_cases n <;> rfl

end Sys2Proof.Machine
end

section
/-! SUPPORT. The invariants (10_state.md R22, R27, R30, R35; 40_encoder.md R106; 41_decoder.md R126;
60_exceptions.md R171): each holds at reset, depends on a few fields only, and every command keeps
it, so `step_keeps_block` gives it for every step. -/

namespace Sys2Proof.Machine

/-! ### Exclusive use -/

/-- Exclusive use of what is to come is exclusive use of what is left of it. -/
theorem exclusive_of_step {s t : State} (hx : s.exclusive) (h : step s = .next t) : t.exclusive := by
  rcases step_pending s t h with ⟨-, rfl⟩ | ⟨e, he⟩
  · exact hx
  · intro hmem
    exact hx (by rw [he]; exact List.mem_cons_of_mem e hmem)

/-! ### The accumulator -/

theorem codecOk_reset : Block.reset.codecOk := by unfold Block.codecOk; decide

/-- The bounds speak of `MODE` and `ACC` alone. -/
theorem Block.codecOk_congr {b b' : Block} (hm : b'.mode = b.mode) (ha : b'.acc = b.acc)
    (h : b.codecOk) : b'.codecOk := by
  unfold Block.codecOk
  rw [hm, ha]
  exact h

theorem codecOk_of_enc {b : Block} (hm : b.mode = Mode.enc) (hc : b.acc.cnt.toNat ≤ 4)
    (hb : b.acc.buf.toNat < 2 ^ b.acc.cnt.toNat) : b.codecOk := by
  simp [Block.codecOk, hm, hc, hb]

theorem codecOk_of_dec {b : Block} (hm : b.mode = Mode.dec) (hc : b.acc.cnt.toNat ≤ 7)
    (hb : b.acc.buf.toNat < 2 ^ b.acc.cnt.toNat) : b.codecOk := by
  simp [Block.codecOk, hm, hc, hb]

/-- An idle block with nothing pending, as `ENC_FLUSH` and `DEC_END` leave it. -/
theorem codecOk_of_idle {b : Block} (hm : b.mode = Mode.idle) (ha : b.acc = ⟨0#12, 0#4⟩) :
    b.codecOk := by
  simp [Block.codecOk, hm, ha]

theorem Block.codecOk.cnt_le_of_enc {b : Block} (h : b.codecOk) (hm : b.mode = Mode.enc) :
    b.acc.cnt.toNat ≤ 4 := by
  obtain ⟨-, -, henc, -⟩ := h
  exact (henc hm).1

theorem Block.codecOk.cnt_le_of_dec {b : Block} (h : b.codecOk) (hm : b.mode = Mode.dec) :
    b.acc.cnt.toNat ≤ 7 := by
  obtain ⟨-, -, -, hdec⟩ := h
  exact (hdec hm).1

theorem CommandEffect.keeps_codecOk {i : Instr} {b b' : Block} (h : b.codecOk)
    (he : CommandEffect i b b') : b'.codecOk := by
  cases he with
  | unchanged _ hb => rwa [hb]
  | refused c _ _ hb => subst hb; exact Block.codecOk_congr rfl rfl h
  | started m hi hb =>
    subst hb
    rcases hi with ⟨-, rfl⟩ | ⟨-, rfl⟩
    · exact codecOk_of_enc rfl (by simp) (by simp)
    · exact codecOk_of_dec rfl (by simp) (by simp)
  | encoded x _ hm _ hb =>
    subst hb
    have hc := h.cnt_le_of_enc hm
    obtain ⟨hcnt, -⟩ := encodeByte_arith x hc
    exact codecOk_of_enc (by simp [hm]) (by omega) (encodeByte_buf_lt x hc)
  | flushedEmpty _ _ _ hb => subst hb; exact codecOk_of_idle rfl rfl
  | flushed g _ _ _ _ hb => subst hb; exact codecOk_of_idle rfl rfl
  | skipped c _ _ _ hb => subst hb; exact Block.codecOk_congr (by simp) (by simp) h
  | decoded c x _ hm _ _ hb =>
    subst hb
    have hc := h.cnt_le_of_dec hm
    obtain ⟨hcnt, -⟩ := decodeGroup_arith x hc
    exact codecOk_of_dec (by simp [hm]) (by omega) (decodeGroup_buf_lt x hc)
  | ended _ _ hb => subst hb; exact codecOk_of_idle (by simp) (by simp)
  | truncated _ hb => subst hb; exact Block.codecOk_congr rfl rfl h
  | reset _ hb => subst hb; exact codecOk_reset

theorem step_keeps_codecOk (s t : State) (hx : s.exclusive) (h : s.block.codecOk)
    (ht : step s = .next t) : t.block.codecOk :=
  step_keeps_block Block.codecOk codecOk_reset (fun _ => Block.codecOk_congr rfl rfl)
    (fun _ _ => Block.codecOk_congr rfl rfl) (fun _ _ => Block.codecOk_congr rfl rfl)
    (fun _ _ => Block.codecOk_congr rfl rfl) (fun _ _ => Block.codecOk_congr rfl rfl)
    (fun _ _ _ => CommandEffect.keeps_codecOk) s t hx h ht

/-- Settles O46: the queue only gets shorter, and the bounds are an invariant of every command. -/
theorem stepKeepsTheAccumulatorBounds : Obligations.StepKeepsTheAccumulatorBounds :=
  fun s t hx h ht => ⟨exclusive_of_step hx ht, step_keeps_codecOk s t hx h ht⟩

/-! ### The counting laws -/

/-- The counting laws speak of `MODE`, `ACC` and the counters alone. -/
theorem Block.countsOk_congr {b b' : Block} (hm : b'.mode = b.mode) (ha : b'.acc = b.acc)
    (hc : b'.counters = b.counters) (h : b.countsOk) : b'.countsOk := by
  unfold Block.countsOk
  rw [hm, ha, hc]
  exact h

theorem countsOk_of_idle {b : Block} (hm : b.mode = Mode.idle) : b.countsOk := by
  simp [Block.countsOk, hm]

/-- An operation just started has counted nothing and holds nothing. -/
theorem countsOk_startOp (m : Mode) (b : Block) : (b.startOp m).countsOk := by
  simp [Block.countsOk]

/-- The counting law of the encoder from `k` bytes to `k + 1`, below a saturation bound `M`. -/
theorem encodeCounts_succ {k M : Nat} (h : min (k + 1) M < M) :
    min (min (8 * k / 5) M + (8 * k % 5 + 8) / 5) M = min (8 * min (k + 1) M / 5) M ∧
      (8 * k % 5 + 8) % 5 = 8 * min (k + 1) M % 5 := by
  have hk : min (k + 1) M = k + 1 := by omega
  rw [hk]
  omega

/-- The counting law of the decoder from `m` characters to `m + 1`, below a saturation bound `M`. -/
theorem decodeCounts_succ {m M : Nat} (h : min (m + 1) M < M) :
    min (5 * m / 8 + (5 * m % 8 + 5) / 8) M = 5 * min (m + 1) M / 8 ∧
      (5 * m % 8 + 5) % 8 = 5 * min (m + 1) M % 8 := by
  have hm : min (m + 1) M = m + 1 := by omega
  rw [hm]
  omega

/-- A byte's 8 bits join the `8k mod 5` pending ones: five of them at a time are emitted
(40_encoder.md R106). -/
theorem countsOk_encodeByte {b : Block} (x : Byte) (hok : b.codecOk) (h : b.countsOk)
    (hm : b.mode = Mode.enc) : (encodeByte x b).countsOk := by
  obtain ⟨hskip, hlaw⟩ := h.1 hm
  obtain ⟨hcnt, -, hout⟩ := encodeByte_arith x (hok.cnt_le_of_enc hm)
  simp only [Block.countsOk, encodeByte_mode, hm, Mode.enc_ne_dec, false_imp_iff, and_true,
    true_imp_iff, encodeByte_counters_skip, hskip, true_and, encodeByte_counters_input, satInc_toNat,
    hcnt, hout]
  intro hlt
  obtain ⟨ho, hc⟩ := hlaw (by omega)
  rw [ho, hc]
  exact encodeCounts_succ hlt

/-- A character's 5 bits join the `5m mod 8` pending ones: eight of them at a time are emitted
(41_decoder.md R126). -/
theorem countsOk_decodeGroup {b : Block} (x : Group) (hok : b.codecOk) (h : b.countsOk)
    (hm : b.mode = Mode.dec) : (decodeGroup x b).countsOk := by
  obtain ⟨hcnt, hout⟩ := decodeGroup_arith x (hok.cnt_le_of_dec hm)
  simp only [Block.countsOk, decodeGroup_mode, hm, Mode.dec_ne_enc, false_imp_iff, true_and,
    true_imp_iff, decodeGroup_counters_input, satInc_toNat, hcnt, hout]
  intro hlt
  obtain ⟨ho, hc⟩ := h.2 hm (by omega)
  rw [ho, hc]
  exact decodeCounts_succ hlt

/-- A skipped character counts neither as input nor as output (41_decoder.md R123). -/
theorem countsOk_skipChar {b : Block} (h : b.countsOk) (hm : b.mode = Mode.dec) :
    (skipChar b).countsOk := by
  simpa [Block.countsOk, hm] using h.2 hm

theorem CommandEffect.keeps_countsOk {i : Instr} {b b' : Block} (hok : b.codecOk) (h : b.countsOk)
    (he : CommandEffect i b b') : b'.countsOk := by
  cases he with
  | unchanged _ hb => rwa [hb]
  | refused c _ _ hb => subst hb; exact Block.countsOk_congr rfl rfl rfl h
  | started m _ hb => subst hb; exact countsOk_startOp m b
  | encoded x _ hm _ hb => subst hb; exact countsOk_encodeByte x hok h hm
  | flushedEmpty _ _ _ hb => subst hb; exact countsOk_of_idle rfl
  | flushed g _ _ _ _ hb => subst hb; exact countsOk_of_idle rfl
  | skipped c _ hm _ hb => subst hb; exact countsOk_skipChar h hm
  | decoded c x _ hm _ _ hb => subst hb; exact countsOk_decodeGroup x hok h hm
  | ended _ _ hb => subst hb; exact countsOk_of_idle (by simp)
  | truncated _ hb => subst hb; exact Block.countsOk_congr rfl rfl rfl h
  | reset _ hb => subst hb; exact countsOk_of_idle rfl

/-- The bounds and the counting laws together, since the laws need the bounds to be kept. -/
theorem codecOk_and_countsOk_congr {b b' : Block} (hm : b'.mode = b.mode) (ha : b'.acc = b.acc)
    (hc : b'.counters = b.counters) (h : b.codecOk ∧ b.countsOk) : b'.codecOk ∧ b'.countsOk :=
  ⟨Block.codecOk_congr hm ha h.1, Block.countsOk_congr hm ha hc h.2⟩

/-- Settles O49: the counting laws are an invariant beside the accumulator bounds. -/
theorem stepKeepsTheCountingLaws : Obligations.StepKeepsTheCountingLaws := by
  intro s t hx hok h ht
  have hboth : t.block.codecOk ∧ t.block.countsOk :=
    step_keeps_block (fun b => b.codecOk ∧ b.countsOk) ⟨codecOk_reset, countsOk_of_idle rfl⟩
      (fun _ => codecOk_and_countsOk_congr rfl rfl rfl)
      (fun _ _ => codecOk_and_countsOk_congr rfl rfl rfl)
      (fun _ _ => codecOk_and_countsOk_congr rfl rfl rfl)
      (fun _ _ => codecOk_and_countsOk_congr rfl rfl rfl)
      (fun _ _ => codecOk_and_countsOk_congr rfl rfl rfl)
      (fun _ _ _ ⟨hok, h⟩ he => ⟨he.keeps_codecOk hok, he.keeps_countsOk hok h⟩) s t hx ⟨hok, h⟩ ht
  exact hboth.2

/-! ### `OUT` and the error fields -/

theorem outOk_reset : Block.reset.outOk := by unfold Block.outOk; decide

/-- The form of `OUT` speaks of `OUT` and `OUT_UNREAD`, which may be cleared. -/
theorem Block.outOk_congr {b b' : Block} (ho : b'.out = b.out)
    (hu : b'.outUnread = true → b.outUnread = true) (h : b.outOk) : b'.outOk := by
  obtain ⟨h3, h0, h1, hunread⟩ := h
  unfold Block.outOk
  rw [ho]
  exact ⟨h3, h0, h1, fun hu' => hunread (hu hu')⟩

/-- One emitted byte fills `B0` and clears `B1` (10_state.md R28). -/
theorem outOk_of_one {b : Block} {x : Byte} (ho : b.out = ⟨1#2, x, 0#8⟩) : b.outOk := by
  simp [Block.outOk, ho]

theorem outOk_of_two {b : Block} {x y : Byte} (ho : b.out = ⟨2#2, x, y⟩) : b.outOk := by
  simp [Block.outOk, ho]

theorem outOk_encodeByte (x : Byte) (b : Block) : (encodeByte x b).outOk := by
  rcases Nat.lt_or_ge b.acc.cnt.toNat 2 with h2 | h2
  · rw [encodeByte_of_lt x b h2]
    exact outOk_of_one rfl
  · rw [encodeByte_of_le x b h2]
    exact outOk_of_two rfl

theorem outOk_decodeGroup {b : Block} (x : Group) (h : b.outOk) : (decodeGroup x b).outOk := by
  rcases Nat.lt_or_ge b.acc.cnt.toNat 3 with h3 | h3
  · rw [decodeGroup_of_lt x b h3]
    exact Block.outOk_congr rfl id h
  · rw [decodeGroup_of_le x b h3]
    exact outOk_of_one rfl

theorem CommandEffect.keeps_outOk {i : Instr} {b b' : Block} (h : b.outOk)
    (he : CommandEffect i b b') : b'.outOk := by
  cases he with
  | unchanged _ hb => rwa [hb]
  | refused c _ _ hb => subst hb; exact Block.outOk_congr rfl id h
  | started m _ hb => subst hb; exact Block.outOk_congr rfl id h
  | encoded x _ _ _ hb => subst hb; exact outOk_encodeByte x b
  | flushedEmpty _ _ _ hb => subst hb; exact Block.outOk_congr rfl id h
  | flushed g _ _ _ _ hb => subst hb; exact outOk_of_one rfl
  | skipped c _ _ _ hb => subst hb; exact Block.outOk_congr (by simp) (by simp) h
  | decoded c x _ _ _ _ hb => subst hb; exact outOk_decodeGroup x h
  | ended _ _ hb => subst hb; exact Block.outOk_congr (by simp) (by simp) h
  | truncated _ hb => subst hb; exact Block.outOk_congr rfl id h
  | reset _ hb => subst hb; exact outOk_reset

theorem step_keeps_outOk (s t : State) (hx : s.exclusive) (h : s.block.outOk)
    (ht : step s = .next t) : t.block.outOk :=
  step_keeps_block Block.outOk outOk_reset (fun _ => Block.outOk_congr rfl nofun)
    (fun _ _ => Block.outOk_congr rfl id) (fun _ _ => Block.outOk_congr rfl id)
    (fun _ _ => Block.outOk_congr rfl id) (fun _ _ => Block.outOk_congr rfl id)
    (fun _ _ _ => CommandEffect.keeps_outOk) s t hx h ht

/-- What a command records: nothing, one error, or, by `SRESET`, the reset values (60_exceptions.md
R172, R180). -/
theorem CommandEffect.err_cases {i : Instr} {b b' : Block} (he : CommandEffect i b b') :
    b'.err = b.err ∨ (∃ c, b'.err = recordError c b.err) ∨ (i = .sreset ∧ b' = Block.reset) := by
  cases he with
  | unchanged _ hb => subst hb; exact .inl rfl
  | refused c _ _ hb => subst hb; exact .inr (.inl ⟨c, rfl⟩)
  | started m _ hb => subst hb; exact .inl rfl
  | encoded x _ _ _ hb => subst hb; exact .inl (encodeByte_err x b)
  | flushedEmpty _ _ _ hb => subst hb; exact .inl rfl
  | flushed g _ _ _ _ hb => subst hb; exact .inl rfl
  | skipped c _ _ _ hb =>
    subst hb
    rw [skipChar_err]
    split
    · exact .inr (.inl ⟨.badchar, rfl⟩)
    · exact .inl rfl
  | decoded c x _ _ _ _ hb => subst hb; exact .inl (decodeGroup_err x b)
  | ended _ _ hb =>
    subst hb
    rw [endDecode_err]
    split
    · exact .inr (.inl ⟨.empty, rfl⟩)
    · exact .inl rfl
  | truncated _ hb => subst hb; exact .inl rfl
  | reset hi hb => exact .inr (.inr ⟨hi, hb⟩)

theorem errOk_reset : Block.reset.errOk := by unfold Block.errOk; decide

theorem Block.errOk_congr {b b' : Block} (he : b'.err = b.err) (h : b.errOk) : b'.errOk := by
  unfold Block.errOk
  rw [he]
  exact h

theorem causeCode_ne_zero (c : Cause) : causeCode c ≠ 0#4 := by cases c <;> decide

/-- The cause codes are 1 to 5, so a recorded error leaves one in `LAST_ERR` (60_exceptions.md
R171). -/
theorem errOk_of_recordError {b : Block} {c : Cause} {e : Errors} (he : b.err = recordError c e) :
    b.errOk := by
  unfold Block.errOk
  rw [he, recordError_eq]
  exact ⟨(causeCode_bounds c).2, fun _ => causeCode_ne_zero c⟩

/-- An acknowledged error leaves `LAST_ERR`, and sets no bit (10_state.md R26). -/
theorem errOk_acknowledge {b : Block} (v : Word) (h : b.errOk) : (b.acknowledge v).errOk := by
  obtain ⟨hle, hset⟩ := h
  refine ⟨hle, fun hbits => hset ?_⟩
  simp only [Block.acknowledge_err, acknowledgeErrors, Bool.or_eq_true, Bool.and_eq_true] at hbits ⊢
  tauto

theorem CommandEffect.keeps_errOk {i : Instr} {b b' : Block} (h : b.errOk)
    (he : CommandEffect i b b') : b'.errOk := by
  rcases he.err_cases with hsame | ⟨c, hrec⟩ | ⟨-, rfl⟩
  · exact Block.errOk_congr hsame h
  · exact errOk_of_recordError hrec
  · exact errOk_reset

theorem step_keeps_errOk (s t : State) (hx : s.exclusive) (h : s.block.errOk)
    (ht : step s = .next t) : t.block.errOk :=
  step_keeps_block Block.errOk errOk_reset (fun _ => Block.errOk_congr rfl)
    (fun _ _ => Block.errOk_congr rfl) (fun _ v => errOk_acknowledge v)
    (fun _ _ => Block.errOk_congr rfl) (fun _ _ _ => errOk_of_recordError rfl)
    (fun _ _ _ => CommandEffect.keeps_errOk) s t hx h ht

/-! ### Hardware reset -/

/-- Only asserting hardware reset raises its level, and that puts the block at its reset values
(70_reset_and_hazards.md R200). -/
theorem step_keeps_heldInReset (s t : State) (h : s.heldInReset) (ht : step s = .next t) :
    t.heldInReset := by
  intro hr
  cases step_effect s t ht with
  | idle _ hs => rw [hs] at hr ⊢; exact h hr
  | read es off hs _ hb => subst hb; exact absurd (hs.symm.trans hr) nofun
  | wrote es off v hs _ _ hb => subst hb; exact absurd (hs.symm.trans hr) nofun
  | illegal es w e hs _ _ hb => subst hb; exact absurd (hs.symm.trans hr) nofun
  | command es w i hs _ _ he =>
    obtain ⟨u, hu, -, -, -, hlevel⟩ := exec_effect i (s.setPending es)
    cases he.symm.trans hu
    exact absurd (hs.symm.trans (hlevel.symm.trans hr)) nofun
  | asserted es _ hb => rw [hb]; rfl
  | released es _ hb => rw [hb] at hr; cases hr
  | interleaved es hs _ hb => subst hb; exact absurd (hs.symm.trans hr) nofun

/-- Settles O47: three invariants, each kept by every command and every access. -/
theorem stepKeepsTheOutputAndErrorForms : Obligations.StepKeepsTheOutputAndErrorForms :=
  fun s t hx hheld hout herr ht => ⟨step_keeps_heldInReset s t hheld ht,
    step_keeps_outOk s t hx hout ht, step_keeps_errOk s t hx herr ht⟩

/-! ### The truncation results -/

/-- A digest write may clear `TR_VALID`; otherwise the digest, the results and the bit go
together. -/
theorem Block.truncOk_congr {b b' : Block} (hr : b'.tr = b.tr)
    (hv : b'.trValid = true → b.trValid = true ∧ b'.digest = b.digest) (h : b.truncOk) :
    b'.truncOk := by
  obtain ⟨hsome, hvalid⟩ := h
  unfold Block.truncOk
  rw [hr]
  refine ⟨hsome, fun hv' => ?_⟩
  obtain ⟨hbv, hd⟩ := hv hv'
  rw [hd]
  exact hvalid hbv

theorem truncOk_reset : Block.reset.truncOk := ⟨.inl rfl, nofun⟩

/-- The digest, the results and `TR_VALID` are none of the codec's (42_truncation.md R143). -/
theorem CommandEffect.trunc_cases {i : Instr} {b b' : Block} (he : CommandEffect i b b') :
    (b'.digest = b.digest ∧ b'.tr = b.tr ∧ b'.trValid = b.trValid ∧ b'.strict = b.strict) ∨
      (i = .trunc ∧ b' = b.setTrunc (truncate b.digest)) ∨ (i = .sreset ∧ b' = Block.reset) := by
  cases he with
  | unchanged _ hb => subst hb; simp
  | refused c _ _ hb => subst hb; simp
  | started m _ hb => subst hb; simp
  | encoded x _ _ _ hb => subst hb; simp
  | flushedEmpty _ _ _ hb => subst hb; simp
  | flushed g _ _ _ _ hb => subst hb; simp
  | skipped c _ _ _ hb => subst hb; simp
  | decoded c x _ _ _ _ hb => subst hb; simp
  | ended _ _ hb => subst hb; simp
  | truncated hi hb => exact .inr (.inl ⟨hi, hb⟩)
  | reset hi hb => exact .inr (.inr ⟨hi, hb⟩)

theorem CommandEffect.keeps_truncOk {i : Instr} {b b' : Block} (h : b.truncOk)
    (he : CommandEffect i b b') : b'.truncOk := by
  rcases he.trunc_cases with ⟨hd, hr, hv, -⟩ | ⟨-, rfl⟩ | ⟨-, rfl⟩
  · exact Block.truncOk_congr hr (fun hv' => ⟨hv ▸ hv', hd⟩) h
  · exact ⟨.inr ⟨b.digest, rfl⟩, fun _ => rfl⟩
  · exact truncOk_reset

/-- Settles O48: `TRUNC` writes the results of the digest held, and a digest write clears
`TR_VALID`. -/
theorem stepKeepsTruncValidMeaningCurrent : Obligations.StepKeepsTruncValidMeaningCurrent :=
  step_keeps_block Block.truncOk truncOk_reset (fun _ => Block.truncOk_congr rfl (⟨·, rfl⟩))
    (fun _ _ => Block.truncOk_congr rfl (⟨·, rfl⟩)) (fun _ _ => Block.truncOk_congr rfl (⟨·, rfl⟩))
    (fun _ _ => Block.truncOk_congr rfl nofun) (fun _ _ => Block.truncOk_congr rfl (⟨·, rfl⟩))
    (fun _ _ _ => CommandEffect.keeps_truncOk)

/-- Settles O45: the block at its reset values is idle, empty and without errors or results. -/
theorem resetStateMeetsTheInvariants : Obligations.ResetStateMeetsTheInvariants :=
  ⟨codecOk_reset, outOk_reset, errOk_reset, truncOk_reset, countsOk_of_idle rfl, nofun, nofun⟩

/-- Settles O53: of the commands, only `TRUNC` and `SRESET` write the truncation unit, and no
command changes the host's side. -/
theorem codecCommandsLeaveTheTruncationUnit : Obligations.CodecCommandsLeaveTheTruncationUnit := by
  intro i s hi
  obtain ⟨t, ht, he, hp, hr, hl⟩ := exec_effect i s
  refine ⟨t, ht, ?_⟩
  rcases he.trunc_cases with ⟨hd, htr, hv, hs⟩ | ⟨rfl, -⟩ | ⟨rfl, -⟩
  · exact ⟨hd, htr, hv, hs, hp, hr, hl⟩
  · cases hi
  · cases hi

end Sys2Proof.Machine
end

section
/-! SUPPORT. What one step may do to the block, with the access that did it: the safety claims over
every step (10_state.md R22, R25, R26, R33; 60_exceptions.md R182; 70_reset_and_hazards.md R204) go
through this one list. -/

namespace Sys2Proof.Machine

/-- A step's effect on the block, by the event behind it. -/
inductive BlockEffect (s t : State) : Prop where
  | kept (h : t.block = s.block)
  | tookOut (ha : s.nextAccess (hostRead .out)) (h : t.block = s.block.takeOut)
  | setCtrl (v : Word) (h : t.block = s.block.setCtrl v)
  | acknowledged (v : Word) (ha : s.nextAccess (hostWrite .status v))
      (h : t.block = s.block.acknowledge v)
  | setDigest (d : Digest) (h : t.block = s.block.setDigest d)
  | illegal (h : t.block = s.block.raise .illegal)
  | command (i : Instr) (ha : s.nextAccess (hostCommand i)) (he : CommandEffect i s.block t.block)
  | asserted (h : s.pending.head? = some .assertReset)
  | interleaved (h : s.nextInterleaved)

theorem nextAccess_of_pending {s : State} {a : Access} {es : List Event} (hr : s.inReset = false)
    (h : s.pending = .access a :: es) : s.nextAccess a := ⟨hr, by rw [h]; rfl⟩

theorem step_blockEffect {s t : State} (h : step s = .next t) : BlockEffect s t := by
  cases step_effect s t h with
  | idle _ ht => exact .kept (by rw [ht])
  | read es off hr hp ht =>
    subst ht
    rcases afterRead_cases (regAt off) s.block with ⟨hreg, hb⟩ | ⟨-, hb⟩
    · rw [(regAt_eq_out_iff off).1 hreg] at hp
      exact .tookOut (nextAccess_of_pending hr hp) hb
    · exact .kept hb
  | wrote es off v hr hp _ ht =>
    subst ht
    rcases afterWrite_cases (regAt off) v s.block with ⟨-, hb⟩ | ⟨hreg, hb⟩ | ⟨d, hb⟩ | hb
    · exact .setCtrl v hb
    · rw [off_eq_of_regAt off .status hreg nofun] at hp
      exact .acknowledged v (nextAccess_of_pending hr hp) hb
    · exact .setDigest d hb
    · exact .kept hb
  | illegal es w e _ _ _ ht => exact .illegal (by rw [ht]; rfl)
  | command es w i hr hp hd he =>
    obtain ⟨u, hu, heff, -⟩ := exec_effect i (s.setPending es)
    cases he.symm.trans hu
    rw [eq_encode_of_decode hd] at hp
    exact .command i (nextAccess_of_pending hr hp) heff
  | asserted es hp _ => exact .asserted (by rw [hp]; rfl)
  | released es _ ht => exact .kept (by rw [ht]; rfl)
  | interleaved es _ hp _ => exact .interleaved (by rw [State.nextInterleaved, hp]; rfl)

/-! ### Unread output -/

/-- No command but `SRESET` touches output left unread: the ones that would emit are refused
(60_exceptions.md R176; 70_reset_and_hazards.md R204). -/
theorem CommandEffect.keeps_unread {i : Instr} {b b' : Block} (he : CommandEffect i b b')
    (hi : i ≠ .sreset) (hu : b.outUnread = true) : b'.out = b.out ∧ b'.outUnread = true := by
  cases he with
  | unchanged _ hb => subst hb; exact ⟨rfl, hu⟩
  | refused c _ _ hb => subst hb; exact ⟨rfl, hu⟩
  | started m _ hb => subst hb; exact ⟨rfl, hu⟩
  | encoded x _ _ hread _ => rw [hu] at hread; cases hread
  | flushedEmpty _ _ _ hb => subst hb; exact ⟨rfl, hu⟩
  | flushed g _ _ _ hread _ => rw [hu] at hread; cases hread
  | skipped c _ _ _ hb => subst hb; exact ⟨by simp, by simp [hu]⟩
  | decoded c x _ _ _ hsilent hb =>
    have h3 : b.acc.cnt.toNat < 3 := by simpa [hu] using hsilent
    subst hb
    rw [decodeGroup_of_lt x b h3]
    exact ⟨rfl, hu⟩
  | ended _ _ hb => subst hb; exact ⟨by simp, by simp [hu]⟩
  | truncated _ hb => subst hb; exact ⟨rfl, hu⟩
  | reset h _ => exact absurd h hi

/-- Settles O50: accesses leave `OUT`, only a read of it marks it read, and commands do not touch
it. -/
theorem unreadOutputIsNeverLost : Obligations.UnreadOutputIsNeverLost := by
  intro s t ht hreset hinter hu
  cases step_blockEffect ht with
  | kept h => rw [h]; exact ⟨rfl, .inl hu⟩
  | tookOut ha h => rw [h]; exact ⟨rfl, .inr ha⟩
  | setCtrl v h => rw [h]; exact ⟨rfl, .inl hu⟩
  | acknowledged v _ h => rw [h]; exact ⟨rfl, .inl hu⟩
  | setDigest d h => rw [h]; exact ⟨rfl, .inl hu⟩
  | illegal h => rw [h]; exact ⟨rfl, .inl hu⟩
  | command i ha he =>
    have hi : i ≠ .sreset := by rintro rfl; exact hreset (.inl ha)
    obtain ⟨hout, hunread⟩ := he.keeps_unread hi hu
    exact ⟨hout, .inl hunread⟩
  | asserted h => exact absurd (.inr h) hreset
  | interleaved h => exact absurd h hinter

/-! ### `MODE` -/

/-- The commands that write `MODE` (10_state.md R22). -/
theorem CommandEffect.mode_cases {i : Instr} {b b' : Block} (he : CommandEffect i b b') :
    b'.mode = b.mode ∨ i ∈ [Instr.encStart, .encFlush, .decStart, .decEnd, .sreset] := by
  cases he with
  | unchanged _ hb => subst hb; exact .inl rfl
  | refused c _ _ hb => subst hb; exact .inl rfl
  | started m hi _ => rcases hi with ⟨rfl, -⟩ | ⟨rfl, -⟩ <;> simp
  | encoded x _ _ _ hb => subst hb; exact .inl (encodeByte_mode x b)
  | flushedEmpty hi _ _ _ => simp [hi]
  | flushed g hi _ _ _ _ => simp [hi]
  | skipped c _ _ _ hb => subst hb; exact .inl (skipChar_mode b)
  | decoded c x _ _ _ _ hb => subst hb; exact .inl (decodeGroup_mode x b)
  | ended hi _ _ => simp [hi]
  | truncated _ hb => subst hb; exact .inl rfl
  | reset hi _ => simp [hi]

/-- Settles O51: of the accesses none writes `MODE`, of the commands these five. -/
theorem onlyFiveCommandsWriteMode : Obligations.OnlyFiveCommandsWriteMode := by
  intro s t ht hne
  cases step_blockEffect ht with
  | kept h => exact absurd (by rw [h]) hne
  | tookOut _ h => exact absurd (by rw [h]; rfl) hne
  | setCtrl v h => exact absurd (by rw [h]; rfl) hne
  | acknowledged v _ h => exact absurd (by rw [h]; rfl) hne
  | setDigest d h => exact absurd (by rw [h]; rfl) hne
  | illegal h => exact absurd (by rw [h]; rfl) hne
  | command i ha he => exact .inl ⟨i, he.mode_cases.resolve_left hne, ha⟩
  | asserted h => exact .inr (.inl h)
  | interleaved h => exact .inr (.inr h)

/-! ### The counters -/

/-- No counter is lower in `c'` than in `c` (10_state.md R33). -/
def Counters.le (c c' : Counters) : Prop :=
  c.input.toNat ≤ c'.input.toNat ∧ c.skip.toNat ≤ c'.skip.toNat ∧ c.output.toNat ≤ c'.output.toNat

theorem Counters.le_of_eq {c c' : Counters} (h : c' = c) : c.le c' := by
  subst h
  exact ⟨le_rfl, le_rfl, le_rfl⟩

theorem counters_le_encodeByte (x : Byte) (b : Block) : b.counters.le (encodeByte x b).counters := by
  rcases Nat.lt_or_ge b.acc.cnt.toNat 2 with h2 | h2
  · rw [encodeByte_of_lt x b h2]
    exact ⟨le_satInc _ _, le_rfl, le_satInc _ _⟩
  · rw [encodeByte_of_le x b h2]
    exact ⟨le_satInc _ _, le_rfl, le_satInc _ _⟩

theorem counters_le_decodeGroup (x : Group) (b : Block) :
    b.counters.le (decodeGroup x b).counters := by
  rcases Nat.lt_or_ge b.acc.cnt.toNat 3 with h3 | h3
  · rw [decodeGroup_of_lt x b h3]
    exact ⟨le_satInc _ _, le_rfl, le_rfl⟩
  · rw [decodeGroup_of_le x b h3]
    exact ⟨le_satInc _ _, le_rfl, le_satInc _ _⟩

theorem CommandEffect.counters_le {i : Instr} {b b' : Block} (he : CommandEffect i b b')
    (henc : i ≠ .encStart) (hdec : i ≠ .decStart) (hsr : i ≠ .sreset) :
    b.counters.le b'.counters := by
  cases he with
  | unchanged _ hb => subst hb; exact Counters.le_of_eq rfl
  | refused c _ _ hb => subst hb; exact Counters.le_of_eq rfl
  | started m hi _ => exact (hi.elim (henc ·.1) (hdec ·.1)).elim
  | encoded x _ _ _ hb => subst hb; exact counters_le_encodeByte x b
  | flushedEmpty _ _ _ hb => subst hb; exact Counters.le_of_eq rfl
  | flushed g _ _ _ _ hb => subst hb; exact ⟨le_rfl, le_rfl, le_satInc _ _⟩
  | skipped c _ _ _ hb => subst hb; simp [Counters.le, le_satInc]
  | decoded c x _ _ _ _ hb => subst hb; exact counters_le_decodeGroup x b
  | ended _ _ hb => subst hb; exact Counters.le_of_eq (endDecode_counters b)
  | truncated _ hb => subst hb; exact Counters.le_of_eq rfl
  | reset h _ => exact absurd h hsr

/-- Settles O52: a counter changes only by `satInc`, or by a command that begins anew. -/
theorem countersNeverWrap : Obligations.CountersNeverWrap := by
  intro s t ht hreset hinter henc hdec
  change s.block.counters.le t.block.counters
  cases step_blockEffect ht with
  | kept h => exact Counters.le_of_eq (by rw [h])
  | tookOut _ h => exact Counters.le_of_eq (by rw [h]; rfl)
  | setCtrl v h => exact Counters.le_of_eq (by rw [h]; rfl)
  | acknowledged v _ h => exact Counters.le_of_eq (by rw [h]; rfl)
  | setDigest d h => exact Counters.le_of_eq (by rw [h]; rfl)
  | illegal h => exact Counters.le_of_eq (by rw [h]; rfl)
  | command i ha he =>
    refine he.counters_le ?_ ?_ ?_
    · rintro rfl; exact henc ha
    · rintro rfl; exact hdec ha
    · rintro rfl; exact hreset (.inl ha)
  | asserted h => exact absurd (.inr h) hreset
  | interleaved h => exact absurd h hinter

/-! ### The error fields -/

/-- Every error recorded before is recorded still, in its bit of `STATUS` and in `LAST_ERR`
(60_exceptions.md R172). -/
def Block.errorsStay (b b' : Block) : Prop :=
  (∀ k, 8 ≤ k → k ≤ 12 → (statusWord b).getLsbD k = true → (statusWord b').getLsbD k = true) ∧
    (b.err.last ≠ 0#4 → b'.err.last ≠ 0#4)

/-- Bits 8 to 12 of `STATUS` show the error fields alone (10_state.md R25). -/
theorem statusWord_errBit_congr {b b' : Block} (h : b'.err = b.err) {k : Nat} (hlo : 8 ≤ k)
    (hhi : k ≤ 12) : (statusWord b').getLsbD k = (statusWord b).getLsbD k := by
  rw [statusWord_bit, statusWord_bit, h]
  interval_cases k <;> rfl

theorem errorsStay_of_eq {b b' : Block} (h : b'.err = b.err) : b.errorsStay b' := by
  refine ⟨fun k hlo hhi hk => ?_, fun hl => ?_⟩
  · rwa [statusWord_errBit_congr h hlo hhi]
  · rwa [h]

/-- Recording one more error clears none. -/
theorem errorsStay_of_recordError {b b' : Block} {c : Cause} (h : b'.err = recordError c b.err) :
    b.errorsStay b' := by
  refine ⟨fun k hlo hhi hk => ?_, fun _ => ?_⟩
  · rw [statusWord_errBit_congr (b := b.raise c) h hlo hhi, statusWord_raise, BitVec.getLsbD_or,
      BitVec.getLsbD_or, BitVec.getLsbD_and, notLastErrMask_bit (by omega), hk,
      decide_eq_false (by omega : ¬(16 ≤ k ∧ k ≤ 19))]
    rfl
  · rw [h, recordError_eq]
    exact causeCode_ne_zero c

theorem CommandEffect.errorsStay {i : Instr} {b b' : Block} (he : CommandEffect i b b')
    (hi : i ≠ .sreset) : b.errorsStay b' := by
  rcases he.err_cases with h | ⟨c, h⟩ | ⟨h, -⟩
  · exact errorsStay_of_eq h
  · exact errorsStay_of_recordError h
  · exact absurd h hi

/-- A step that is no reset, no interleaved use and no `STATUS` write leaves every recorded
error. -/
theorem step_errorsStay {s t : State} (ht : step s = .next t) (hreset : ¬s.nextResets)
    (hinter : ¬s.nextInterleaved) :
    s.block.errorsStay t.block ∨
      ∃ v, s.nextAccess (hostWrite .status v) ∧ t.block = s.block.acknowledge v := by
  cases step_blockEffect ht with
  | kept h => exact .inl (errorsStay_of_eq (by rw [h]))
  | tookOut _ h => exact .inl (errorsStay_of_eq (by rw [h]; rfl))
  | setCtrl v h => exact .inl (errorsStay_of_eq (by rw [h]; rfl))
  | acknowledged v ha h => exact .inr ⟨v, ha, h⟩
  | setDigest d h => exact .inl (errorsStay_of_eq (by rw [h]; rfl))
  | illegal h => exact .inl (errorsStay_of_recordError (c := .illegal) (by rw [h]; rfl))
  | command i ha he =>
    refine .inl (he.errorsStay ?_)
    rintro rfl
    exact hreset (.inl ha)
  | asserted h => exact absurd (.inr h) hreset
  | interleaved h => exact absurd h hinter

/-- Settles O33: a `STATUS` write clears the bits written with 1 and leaves `LAST_ERR`; no other
step clears any. -/
theorem onlyTheHostAndResetClearErrors : Obligations.OnlyTheHostAndResetClearErrors := by
  intro s t ht hreset hinter
  rcases step_errorsStay ht hreset hinter with ⟨hbits, hlast⟩ | ⟨v, ha, hack⟩
  · exact ⟨fun k hlo hhi hk => .inl (hbits k hlo hhi hk), hlast⟩
  · rw [hack]
    refine ⟨fun k hlo hhi hk => ?_, id⟩
    cases hv : v.getLsbD k with
    | true => exact .inr ⟨_, v, ha, rfl, hv⟩
    | false =>
      have hk : (statusWord s.block).getLsbD k = true := hk
      have hstays : (statusWord (s.block.acknowledge v)).getLsbD k = true := by
        rw [statusWord_acknowledge, BitVec.getLsbD_and, hk, BitVec.getLsbD_not, BitVec.getLsbD_and, hv,
          decide_eq_true (show k < 32 by omega)]
        rfl
      exact .inl hstays

end Sys2Proof.Machine
end

section
/-! SUPPORT. Single steps and the order of steps (20_memory.md R60, R61, R66, R67, R72;
30_encoding.md R83, R88; 70_reset_and_hazards.md R200; 60_exceptions.md R170, R179, R187). -/

namespace Sys2Proof.Machine

/-! ### Words and assembly -/

/-- Settles O3: each word written out is the word of its command. -/
theorem opcodeMapWordsDecode : Obligations.OpcodeMapWordsDecode :=
  ⟨decode_encode .nop, decode_encode .encStart, decode_encode .encFlush, decode_encode .decStart,
    decode_encode .decEnd, decode_encode .trunc, decode_encode .sreset,
    decode_encode (.encByte 0x4D#8), decode_encode (.encByte 0xFF#8),
    decode_encode (.decChar 0x7A#8), decode_encode (.decChar 0x80#8)⟩

/-- An operand written as a number stands in the low byte of the word (30_encoding.md R80, R88). -/
theorem encodeFields_ofNat (opc : BitVec 4) {n : Nat} (h : n ≤ 255) :
    encodeFields opc (BitVec.ofNat 8 n) = BitVec.ofNat 32 (opc.toNat * 2 ^ 28 + n) := by
  have := opc.isLt
  apply BitVec.eq_of_toNat_eq
  rw [Laws.LegalEncoding.encodeFields_toNat, BitVec.toNat_ofNat, BitVec.toNat_ofNat]
  omega

/-- Settles O6: a line is well-formed exactly when its operand is at most 255. -/
theorem assemblyOperandsAreZeroTo255 : Obligations.AssemblyOperandsAreZeroTo255 := by
  intro n
  constructor
  · intro h
    simp only [assemble, AsmLine.wellFormed, h, decide_true, if_true, Option.map_some, encode,
      encodeFields_ofNat _ h]
    exact ⟨rfl, rfl⟩
  · intro h
    simp [assemble, AsmLine.wellFormed, h]

/-! ### The register map and the window -/

/-- Settles O36: the nineteen offsets one by one, and the two general facts of the map. -/
theorem registerMapIsAsStated : Obligations.RegisterMapIsAsStated :=
  ⟨by decide, fun _ => regAt_of_reservedOffset, regAt_regOffset⟩

/-- Settles O42: an address is routed exactly when it is one of the window's. -/
theorem windowHoldsTheAddressesFromBase : Obligations.WindowHoldsTheAddressesFromBase := by
  intro base a
  constructor
  · intro off hoff ha
    have hin : base ≤ a.addr ∧ a.addr < base + Config.windowBytes := by
      rw [Config.windowBytes]
      omega
    rw [busEvent, windowOffset, if_pos hin, ha, Nat.add_sub_cancel_left]
    rfl
  · intro hout
    have hnot : ¬(base ≤ a.addr ∧ a.addr < base + Config.windowBytes) := by
      rw [Config.windowBytes]
      omega
    rw [busEvent, windowOffset, if_neg hnot]
    rfl

/-- Settles O38: a `CTRL` write is `Block.setCtrl`, and `CTRL` shows that bit alone. -/
theorem ctrlWriteStoresStrictOnly : Obligations.CtrlWriteStoresStrictOnly := by
  intro s v rest hr hp
  refine ⟨_, step_write s .ctrl v rest hr nofun hp, rfl, ?_⟩
  change 0#31 ++ BitVec.ofBool (v.getLsbD 0) = v &&& 1#32
  apply BitVec.eq_of_toNat_eq
  rw [append_toNat, BitVec.toNat_and, BitVec.toNat_ofNat, BitVec.toNat_ofNat, BitVec.toNat_ofBool,
    ← BitVec.testBit_toNat, Nat.testBit_zero]
  have hmask : v.toNat &&& 1 % 2 ^ 32 = v.toNat % 2 := Nat.and_one_is_mod _
  rw [hmask]
  rcases Nat.mod_two_eq_zero_or_one v.toNat with h | h <;> simp [h]

/-! ### Events that are no access of a running block -/

/-- While hardware reset is asserted an access is given no step (70_reset_and_hazards.md R200). -/
theorem step_access_inReset {s : State} {a : Access} {es : List Event} (hr : s.inReset = true)
    (h : s.pending = .access a :: es) : step s = .fault .accessInReset := by
  simp only [step, h, performEvent, State.setPending_inReset, hr, if_true]

/-- Interleaved use leaves the block of the next free values (log entry 6). -/
theorem step_interleaved {s : State} {es : List Event} (hr : s.inReset = false)
    (h : s.pending = .interleaved :: es) :
    step s = .next (((s.setPending es).setBlock (freeBlock s.freeIdx)).advanceFree
      freeBlockSize) := by
  simp only [step, h, performEvent, State.setPending_inReset, hr, Bool.false_eq_true, if_false]
  rfl

/-- Interleaved use while hardware reset is asserted is given no step (log entry 5). -/
theorem step_interleaved_inReset {s : State} {es : List Event} (hr : s.inReset = true)
    (h : s.pending = .interleaved :: es) : step s = .fault .accessInReset := by
  simp only [step, h, performEvent, State.setPending_inReset, hr, if_true]

/-- Settles O43: one lemma for each of the three events. -/
theorem hardwareResetHoldsTheBlock : Obligations.HardwareResetHoldsTheBlock :=
  fun _ _ => ⟨step_assertReset, step_releaseReset, fun _ => step_access_inReset⟩

/-- Settles O44: the step of interleaved use, field by field. -/
theorem interleavedUseLeavesSomeBlock : Obligations.InterleavedUseLeavesSomeBlock :=
  fun _ _ hr hp => step_interleaved hr hp

/-! ### Which steps stop -/

/-- Settles O41: an illegal access faults, a legal one is performed. -/
theorem illegalAccessIsABusError : Obligations.IllegalAccessIsABusError := by
  intro s a rest hr hp
  constructor
  · intro hnot
    exact step_illegal s a rest hr (Bool.not_eq_true _ ▸ mt (Access.legal_iff a).1 hnot) hp
  · intro hw h4 hlt
    obtain ⟨t, ht, -⟩ := step_legal s a rest hr ((Access.legal_iff a).2 ⟨hw, h4, hlt⟩) hp
    exact ⟨t, ht⟩

/-- Settles O9: every command answers, and the steps that stop are sorted by the oldest event and
the level of reset. -/
theorem nothingButIllegalAccessesStopsTheBlock :
    Obligations.NothingButIllegalAccessesStopsTheBlock := by
  refine ⟨fun i s => ?_, fun s => ?_⟩
  · obtain ⟨t, ht, -⟩ := exec_effect i s
    exact ⟨t, ht⟩
  · cases hp : s.pending with
    | nil => exact .inl ⟨s, by simp only [step, hp]⟩
    | cons e es =>
      cases e with
      | assertReset => exact .inl ⟨_, step_assertReset hp⟩
      | releaseReset => exact .inl ⟨_, step_releaseReset hp⟩
      | interleaved =>
        cases hr : s.inReset with
        | false => exact .inl ⟨_, step_interleaved hr hp⟩
        | true =>
          have hnext : s.nextInterleaved := by rw [State.nextInterleaved, hp]; rfl
          exact .inr (.inr ⟨rfl, .inl hnext, step_interleaved_inReset hr hp⟩)
      | access a =>
        cases hr : s.inReset with
        | false =>
          obtain ⟨hbad, hgood⟩ := illegalAccessIsABusError s a es hr hp
          by_cases hl : a.width = 4 ∧ a.off % 4 = 0 ∧ a.off < 0x100
          · exact .inl (hgood hl.1 hl.2.1 hl.2.2)
          · exact .inr (.inl ⟨a, nextAccess_of_pending hr hp, hl, hbad hl⟩)
        | true => exact .inr (.inr ⟨rfl, .inr ⟨a, rfl⟩, step_access_inReset hr hp⟩)

/-! ### The order of accesses -/

/-- `n` steps take the `n` oldest events off the queue and no other (20_memory.md R66). -/
theorem runSteps_pending (es fs : List Event) (s t : State) (hp : s.pending = es ++ fs)
    (h : runSteps es.length s = .next t) : t.pending = fs := by
  induction es generalizing s with
  | nil => cases h; exact hp
  | cons e es ih =>
    simp only [List.length_cons, runSteps] at h
    cases hs : step s with
    | next u =>
      simp only [hs] at h
      rcases step_pending s u hs with ⟨hnil, -⟩ | ⟨e', he⟩
      · rw [hnil] at hp; cases hp
      · rw [hp] at he
        exact ih u (List.tail_eq_of_cons_eq he).symm h
    | fault f => simp [hs] at h
    | refused r => simp [hs] at h

theorem withProgram_append (p q : List Access) (s : State) :
    s.withProgram (p ++ q) = (s.withProgram q).withProgram p := by
  simp [State.withProgram]

/-- Settles O10: the steps of `p ++ q` are those of `p` and then those of `q`, and `p` leaves what
stands behind it in the queue. -/
theorem programsRunInSequence : Obligations.ProgramsRunInSequence := by
  intro p q s t ht
  have hpend : t.pending = (s.withProgram q).pending :=
    runSteps_pending (p.map .access) _ _ t rfl (by rwa [List.length_map])
  refine ⟨hpend, ?_⟩
  have hstart : ({ t with pending := s.pending } : State).withProgram q = t :=
    congrArg (fun es => { t with pending := es }) hpend.symm
  rw [runProgram, List.length_append, withProgram_append, runSteps_add _ _ _ _ ht, runProgram,
    hstart]

end Sys2Proof.Machine
end

section
/-! SUPPORT. Every register as a number (10_state.md R23 to R40), and the truncation results seen
through their registers (42_truncation.md R142). -/

namespace Sys2Proof.Machine

theorem statusWord_toNat (b : Block) : (statusWord b).toNat =
    b.outUnread.toNat + 2 ^ 1 * b.mode.toNat + 2 ^ 3 * b.trValid.toNat +
      2 ^ 8 * b.err.illegal.toNat + 2 ^ 9 * b.err.seq.toNat + 2 ^ 10 * b.err.ovr.toNat +
      2 ^ 11 * b.err.badchar.toNat + 2 ^ 12 * b.err.empty.toNat + 2 ^ 16 * b.err.last.toNat := by
  simp only [statusWord, append_toNat, BitVec.toNat_ofBool, BitVec.toNat_ofNat]
  omega

theorem ctrlWord_toNat (b : Block) : (ctrlWord b).toNat = b.strict.toNat := by
  simp only [ctrlWord, append_toNat, BitVec.toNat_ofBool, BitVec.toNat_ofNat]
  omega

theorem outWord_toNat (o : Out) :
    (outWord o).toNat = o.n.toNat + 2 ^ 16 * o.b1.toNat + 2 ^ 24 * o.b0.toNat := by
  simp only [outWord, append_toNat, BitVec.toNat_ofNat]
  omega

theorem accWord_toNat (a : Acc) : (accWord a).toNat = a.buf.toNat + 2 ^ 16 * a.cnt.toNat := by
  simp only [accWord, append_toNat, BitVec.toNat_ofNat]
  omega

section
variable (r : TruncResult)

theorem trOffsetWord_toNat : (trOffsetWord r).toNat = r.offset.toNat := by
  rw [trOffsetWord, BitVec.toNat_setWidth_of_le (by decide)]

theorem trPWord_toNat : (trPWord r).toNat = r.p.toNat := by
  rw [trPWord, BitVec.toNat_setWidth_of_le (by decide)]

theorem trCodeWord_toNat : (trCodeWord r).toNat = r.code.toNat := by
  rw [trCodeWord, BitVec.toNat_setWidth_of_le (by decide)]

theorem trAscii0Word_toNat : (trAscii0Word r).toNat =
    2 ^ 24 * r.d0.toNat + 2 ^ 16 * r.d1.toNat + 2 ^ 8 * r.d2.toNat + r.d3.toNat := by
  simp only [trAscii0Word, append_toNat]
  omega

theorem trAscii1Word_toNat :
    (trAscii1Word r).toNat = 2 ^ 24 * r.d4.toNat + 2 ^ 16 * r.d5.toNat := by
  simp only [trAscii1Word, append_toNat, BitVec.toNat_ofNat]
  omega

end

/-- Settles O34: the registers put together from fields, one lemma each; the others hold one
field. -/
theorem registersShowTheirFields : Obligations.RegistersShowTheirFields :=
  fun b => ⟨rfl, ctrlWord_toNat b, statusWord_toNat b, rfl, outWord_toNat b.out, accWord_toNat b.acc,
    rfl, rfl, rfl, rfl, rfl, rfl, rfl, rfl, trOffsetWord_toNat b.tr, trPWord_toNat b.tr,
    trCodeWord_toNat b.tr, trAscii0Word_toNat b.tr, trAscii1Word_toNat b.tr, rfl⟩

/-- Settles O26: the results are a function of the digest. -/
theorem truncDependsOnTheDigestAlone : Obligations.TruncDependsOnTheDigestAlone := by
  intro s s' hd
  exact ⟨_, _, exec_trunc s, exec_trunc s', congrArg truncate hd, by simp⟩

/-- The bytes of `TR_ASCII0` are the first four digits, first digit highest (10_state.md R39). -/
theorem trAscii0Word_bytes (r : TruncResult) :
    (trAscii0Word r).toNat / 2 ^ 24 = r.d0.toNat ∧
    (trAscii0Word r).toNat / 2 ^ 16 % 2 ^ 8 = r.d1.toNat ∧
    (trAscii0Word r).toNat / 2 ^ 8 % 2 ^ 8 = r.d2.toNat ∧
    (trAscii0Word r).toNat % 2 ^ 8 = r.d3.toNat := by
  have := r.d1.isLt; have := r.d2.isLt; have := r.d3.isLt
  rw [trAscii0Word_toNat]
  omega

/-- The bytes of `TR_ASCII1` are the last two digits and two zeros (10_state.md R39). -/
theorem trAscii1Word_bytes (r : TruncResult) :
    (trAscii1Word r).toNat / 2 ^ 24 = r.d4.toNat ∧
    (trAscii1Word r).toNat / 2 ^ 16 % 2 ^ 8 = r.d5.toNat ∧
    (trAscii1Word r).toNat % 2 ^ 16 = 0 := by
  have := r.d5.isLt
  rw [trAscii1Word_toNat]
  omega

/-- The six digits of a number as ASCII codes, highest first (42_truncation.md R140). -/
def asciiDigits (n : Nat) : List Nat := (List.range 6).map fun i => 0x30 + n / 10 ^ (5 - i) % 10

theorem asciiDigits_bounds {n c : Nat} (h : c ∈ asciiDigits n) : 0x30 ≤ c ∧ c ≤ 0x39 := by
  obtain ⟨i, -, rfl⟩ := List.mem_map.1 h
  omega

/-- A number below 10^6 is its six digits read as a decimal number (42_truncation.md R142). -/
theorem foldl_asciiDigits {n : Nat} (h : n ≤ 999999) :
    (asciiDigits n).foldl (fun m c => 10 * m + (c - 0x30)) 0 = n := by
  simp only [asciiDigits, List.range_succ, List.range_zero, List.nil_append, List.cons_append,
    List.map_cons, List.map_nil, List.foldl_cons, List.foldl_nil, Nat.reduceSub, Nat.reducePow]
  omega

/-- The digits of the truncation results are those of their code (42_truncation.md R140). -/
theorem truncate_digits (d : Digest) :
    [(truncate d).d0.toNat, (truncate d).d1.toNat, (truncate d).d2.toNat, (truncate d).d3.toNat,
      (truncate d).d4.toNat, (truncate d).d5.toNat] = asciiDigits (truncate d).code.toNat := by
  obtain ⟨-, -, hcode, hdigits⟩ := truncationFunctionIsAsStated d
  rw [hcode]
  exact hdigits

theorem truncate_code_toNat (d : Digest) :
    (truncate d).code.toNat = (truncate d).p.toNat % 1000000 := truncCode_toNat (truncP d)

/-- Settles O24: the registers show the fields of `truncate`, whose code is below 10^6 and whose
digits are the code's decimal places. -/
theorem truncResultsAreConsistent : Obligations.TruncResultsAreConsistent := by
  intro s
  have hcode := truncate_code_toNat s.block.digest
  have hdigits := truncate_digits s.block.digest
  refine ⟨_, exec_trunc s, ?_⟩
  simp only [readReg, State.setBlock_block, Block.setTrunc_tr, trOffsetWord_toNat, trPWord_toNat,
    trCodeWord_toNat]
  generalize truncate s.block.digest = r at hcode hdigits ⊢
  have := r.offset.isLt; have := r.p.isLt
  obtain ⟨h0, h1, h2, h3⟩ := trAscii0Word_bytes r
  obtain ⟨h4, h5, hlow⟩ := trAscii1Word_bytes r
  rw [h0, h1, h2, h3, h4, h5, hdigits]
  exact ⟨by omega, by omega, hcode, by omega, hlow, fun c => asciiDigits_bounds,
    foldl_asciiDigits (by omega)⟩

end Sys2Proof.Machine
end

section
/-! SUPPORT. Every command as refused or accepted (60_exceptions.md R173, R180): with the cause of a
refusal and the block an accepted command leaves as two functions, the claims that compare commands
follow from facts about those (42_truncation.md R143; 40_encoder.md R107; log entries 7 and 8). -/

namespace Sys2Proof.Machine

/-! ### Refused -/

section
variable {i : Instr} {b : Block} {m : Mode}

theorem refusalCause_eq_some_iff (h : neededMode i = some m) (c : Cause) :
    refusalCause i b = some c ↔ (b.mode ≠ m ∧ c = .seq) ∨
      (b.mode = m ∧ wouldEmit i b = true ∧ b.outUnread = true ∧ c = .ovr) := by
  unfold refusalCause
  rw [h]
  dsimp only
  by_cases hm : b.mode = m <;>
    simp [hm, @eq_comm _ Cause.seq c, @eq_comm _ Cause.ovr c, and_assoc]

theorem refusalCause_eq_none_iff (h : neededMode i = some m) :
    refusalCause i b = none ↔ b.mode = m ∧ ¬(wouldEmit i b = true ∧ b.outUnread = true) := by
  unfold refusalCause
  rw [h]
  dsimp only
  by_cases hm : b.mode = m <;> simp [hm]

end

theorem cnt_pos_iff (a : Acc) : 0 < a.cnt.toNat ↔ a.cnt ≠ 0#4 := by
  rw [Nat.pos_iff_ne_zero, ne_eq, ne_eq, ← BitVec.toNat_inj]
  rfl

/-- A command with a cause to be refused records it and does nothing else (60_exceptions.md
R173). -/
theorem exec_of_refused {i : Instr} {s : State} {c : Cause} (h : refusalCause i s.block = some c) :
    exec i s = .next (s.raise c) := by
  cases i with
  | nop | encStart | decStart | trunc | sreset => cases h
  | encByte b =>
    rcases (refusalCause_eq_some_iff rfl c).1 h with ⟨hm, rfl⟩ | ⟨hm, -, hu, rfl⟩
    · exact exec_encByte_of_wrong_mode b hm
    · exact exec_encByte_of_unread b hm hu
  | encFlush =>
    rcases (refusalCause_eq_some_iff rfl c).1 h with ⟨hm, rfl⟩ | ⟨hm, hw, hu, rfl⟩
    · exact exec_encFlush_of_wrong_mode hm
    · exact exec_encFlush_of_unread hm ((cnt_pos_iff _).1 (of_decide_eq_true hw)) hu
  | decChar x =>
    rcases (refusalCause_eq_some_iff rfl c).1 h with ⟨hm, rfl⟩ | ⟨hm, hw, hu, rfl⟩
    · exact exec_decChar_of_wrong_mode x hm
    · simp only [wouldEmit, Bool.and_eq_true, decide_eq_true_eq, Option.isSome_iff_exists] at hw
      obtain ⟨⟨g, hg⟩, h3⟩ := hw
      exact exec_decChar_of_unread hm hg h3 hu
  | decEnd =>
    rcases (refusalCause_eq_some_iff rfl c).1 h with ⟨hm, rfl⟩ | ⟨-, hw, -⟩
    · exact exec_decEnd_of_wrong_mode hm
    · cases hw

/-! ### Accepted -/

/-- The block an accepted command leaves; `g` is the free value `ENC_FLUSH` uses with more than 5
bits pending (log entry 7). -/
def acceptedBlock (i : Instr) (g : Group) (b : Block) : Block :=
  match i with
  | .nop => b
  | .encStart => b.startOp Mode.enc
  | .encByte x => encodeByte x b
  | .encFlush => if b.acc.cnt = 0#4 then b.endOp else flushPending g b
  | .decStart => b.startOp Mode.dec
  | .decChar c =>
    match lookup c with
    | none => skipChar b
    | some x => decodeGroup x b
  | .decEnd => endDecode b
  | .trunc => b.setTrunc (truncate b.digest)
  | .sreset => Block.reset

/-- The free values an accepted command uses: only `ENC_FLUSH` can use one (log entry 7). -/
def acceptedFree (i : Instr) (b : Block) : Nat :=
  match i with
  | .encFlush => if b.acc.cnt = 0#4 then 0 else flushFree b.acc
  | .nop | .encStart | .encByte _ | .decStart | .decChar _ | .decEnd | .trunc | .sreset => 0

/-- The state an accepted command leaves. -/
def State.accept (i : Instr) (s : State) : State :=
  (s.setBlock (acceptedBlock i (Config.freeValue 5 s.freeIdx) s.block)).advanceFree
    (acceptedFree i s.block)

/-- A command with no cause to be refused is accepted (60_exceptions.md R173). -/
theorem exec_of_accepted {i : Instr} {s : State} (h : refusalCause i s.block = none) :
    exec i s = .next (s.accept i) := by
  cases i with
  | nop | encStart | decStart | trunc | sreset => rfl
  | encByte b =>
    obtain ⟨hm, hsilent⟩ := (refusalCause_eq_none_iff rfl).1 h
    exact exec_encByte_of_read b hm (by simpa [wouldEmit] using hsilent)
  | encFlush =>
    obtain ⟨hm, hsilent⟩ := (refusalCause_eq_none_iff rfl).1 h
    by_cases hc : s.block.acc.cnt = 0#4
    · rw [exec_encFlush_of_empty hm hc]
      simp only [State.accept, acceptedBlock, acceptedFree, if_pos hc]
      rfl
    · have hw : wouldEmit .encFlush s.block = true := decide_eq_true ((cnt_pos_iff _).2 hc)
      rw [exec_encFlush_of_read hm hc (by simpa [hw] using hsilent)]
      simp only [State.accept, acceptedBlock, acceptedFree, if_neg hc]
  | decChar c =>
    obtain ⟨hm, hsilent⟩ := (refusalCause_eq_none_iff rfl).1 h
    cases hl : lookup c with
    | none =>
      rw [exec_decChar_of_unknown hm hl]
      simp only [State.accept, acceptedBlock, hl]
      rfl
    | some x =>
      rw [exec_decChar_of_known hm hl (by simpa [wouldEmit, hl] using hsilent)]
      simp only [State.accept, acceptedBlock, hl]
      rfl
  | decEnd =>
    obtain ⟨hm, -⟩ := (refusalCause_eq_none_iff rfl).1 h
    exact exec_decEnd_of_dec hm

/-! ### One error at most -/

/-- The error an accepted command records (60_exceptions.md R177, R178). -/
theorem acceptedBlock_err {i : Instr} (g : Group) (b : Block) (hi : i ≠ .sreset) :
    (acceptedBlock i g b).err = match completionCause i b with
      | none => b.err
      | some c => recordError c b.err := by
  cases i with
  | nop | encStart | decStart | trunc => rfl
  | sreset => exact absurd rfl hi
  | encByte x => exact encodeByte_err x b
  | encFlush =>
    simp only [acceptedBlock, completionCause]
    split <;> rfl
  | decChar c =>
    cases hl : lookup c with
    | none => cases hs : b.strict <;> simp [acceptedBlock, completionCause, hl, hs]
    | some x => simp [acceptedBlock, completionCause, hl]
  | decEnd =>
    by_cases ho : b.counters.output = 0#32 <;> simp [acceptedBlock, completionCause, ho]

/-- Settles O32: a refused command records its cause, an accepted one what `completionCause`
names. -/
theorem oneCommandRecordsAtMostOneError : Obligations.OneCommandRecordsAtMostOneError := by
  intro i s hi
  cases h : refusalCause i s.block with
  | some c =>
    refine ⟨_, exec_of_refused h, ?_⟩
    simp only [commandError, h]
    rfl
  | none =>
    refine ⟨_, exec_of_accepted h, ?_⟩
    simp only [commandError, h]
    exact acceptedBlock_err _ s.block hi

/-! ### The error fields influence nothing -/

/-- The block with other error fields. -/
def Block.withErr (e : Errors) (b : Block) : Block := { b with err := e }

/-- Two blocks that agree in everything but the error fields. -/
def Block.agreeButErr (b b' : Block) : Prop := b' = b.withErr b'.err

theorem refusalCause_withErr (i : Instr) (e : Errors) (b : Block) :
    refusalCause i (b.withErr e) = refusalCause i b := by cases i <;> rfl

theorem encodeByte_withErr (x : Byte) (e : Errors) (b : Block) :
    encodeByte x (b.withErr e) = (encodeByte x b).withErr e := by
  rcases Nat.lt_or_ge b.acc.cnt.toNat 2 with h2 | h2
  · rw [encodeByte_of_lt x b h2, encodeByte_of_lt x (b.withErr e) h2]
    rfl
  · rw [encodeByte_of_le x b h2, encodeByte_of_le x (b.withErr e) h2]
    rfl

theorem decodeGroup_withErr (x : Group) (e : Errors) (b : Block) :
    decodeGroup x (b.withErr e) = (decodeGroup x b).withErr e := by
  rcases Nat.lt_or_ge b.acc.cnt.toNat 3 with h3 | h3
  · rw [decodeGroup_of_lt x b h3, decodeGroup_of_lt x (b.withErr e) h3]
    rfl
  · rw [decodeGroup_of_le x b h3, decodeGroup_of_le x (b.withErr e) h3]
    rfl

theorem acceptedBlock_withErr (i : Instr) (g : Group) (e : Errors) (b : Block) :
    (acceptedBlock i g b).agreeButErr (acceptedBlock i g (b.withErr e)) := by
  cases i with
  | nop | encStart | decStart | trunc | sreset => rfl
  | encByte x =>
    simp only [acceptedBlock, encodeByte_withErr]
    rfl
  | encFlush =>
    by_cases hc : b.acc.cnt = 0#4
    · simp only [acceptedBlock, Block.withErr, hc, if_true]
      rfl
    · simp only [acceptedBlock, Block.withErr, hc, if_false]
      rfl
  | decChar c =>
    cases hl : lookup c with
    | none =>
      simp only [acceptedBlock, hl, skipChar_eq]
      rfl
    | some x =>
      simp only [acceptedBlock, hl, decodeGroup_withErr]
      rfl
  | decEnd =>
    simp only [acceptedBlock, endDecode_eq]
    rfl

/-- Settles O31: a refusal is `State.raise`, and neither the cause of a refusal nor what an accepted
command does outside the error fields depends on them. -/
theorem refusalIsPrecise : Obligations.RefusalIsPrecise := by
  refine ⟨fun i s c h => exec_of_refused h, fun i s e => ?_⟩
  have hcause : refusalCause i (s.setBlock (s.block.withErr e)).block = refusalCause i s.block :=
    refusalCause_withErr i e s.block
  cases h : refusalCause i s.block with
  | some c => exact ⟨_, _, exec_of_refused h, exec_of_refused (hcause.trans h), rfl⟩
  | none =>
    refine ⟨_, _, exec_of_accepted h, exec_of_accepted (hcause.trans h), ?_⟩
    have hblock := acceptedBlock_withErr i (Config.freeValue 5 s.freeIdx) e s.block
    exact congrArg (fun b => (s.setBlock b).advanceFree (acceptedFree i s.block)) hblock

/-! ### `TRUNC` and the codec -/

section
variable (i : Instr) (r : TruncResult) (b : Block)

theorem refusalCause_setTrunc : refusalCause i (b.setTrunc r) = refusalCause i b := by
  cases i <;> rfl

theorem encodeByte_setTrunc (x : Byte) :
    encodeByte x (b.setTrunc r) = (encodeByte x b).setTrunc r := by
  rcases Nat.lt_or_ge b.acc.cnt.toNat 2 with h2 | h2
  · rw [encodeByte_of_lt x b h2, encodeByte_of_lt x (b.setTrunc r) h2]
    rfl
  · rw [encodeByte_of_le x b h2, encodeByte_of_le x (b.setTrunc r) h2]
    rfl

theorem decodeGroup_setTrunc (x : Group) :
    decodeGroup x (b.setTrunc r) = (decodeGroup x b).setTrunc r := by
  rcases Nat.lt_or_ge b.acc.cnt.toNat 3 with h3 | h3
  · rw [decodeGroup_of_lt x b h3, decodeGroup_of_lt x (b.setTrunc r) h3]
    rfl
  · rw [decodeGroup_of_le x b h3, decodeGroup_of_le x (b.setTrunc r) h3]
    rfl

/-- A codec command neither reads nor writes what `TRUNC` writes (42_truncation.md R143). -/
theorem acceptedBlock_setTrunc (g : Group) (hi : isCodecCommand i = true) :
    acceptedBlock i g (b.setTrunc r) = (acceptedBlock i g b).setTrunc r := by
  cases i with
  | nop | trunc | sreset => cases hi
  | encStart | decStart => rfl
  | encByte x => exact encodeByte_setTrunc r b x
  | encFlush =>
    by_cases hc : b.acc.cnt = 0#4
    · simp only [acceptedBlock, Block.setTrunc_acc, hc, if_true]
      rfl
    · simp only [acceptedBlock, Block.setTrunc_acc, hc, if_false]
      rfl
  | decChar c =>
    cases hl : lookup c with
    | none =>
      simp only [acceptedBlock, hl, skipChar_eq]
      rfl
    | some x =>
      simp only [acceptedBlock, hl]
      exact decodeGroup_setTrunc r b x
  | decEnd =>
    simp only [acceptedBlock, endDecode_eq]
    rfl

end

/-- A codec command after the results are written leaves what it leaves before, and the results. -/
theorem exec_setTrunc {i : Instr} (hi : isCodecCommand i = true) (r : TruncResult) {s t : State}
    (h : exec i s = .next t) :
    exec i (s.setBlock (s.block.setTrunc r)) = .next (t.setBlock (t.block.setTrunc r)) := by
  have hcause : refusalCause i (s.setBlock (s.block.setTrunc r)).block = refusalCause i s.block :=
    refusalCause_setTrunc i r s.block
  cases hr : refusalCause i s.block with
  | some c =>
    cases (exec_of_refused hr).symm.trans h
    exact exec_of_refused (hcause.trans hr)
  | none =>
    cases (exec_of_accepted hr).symm.trans h
    rw [exec_of_accepted (hcause.trans hr)]
    have hblock := acceptedBlock_setTrunc i r s.block (Config.freeValue 5 s.freeIdx) hi
    exact congrArg (fun b => Host.Outcome.next ((s.setBlock b).advanceFree (acceptedFree i s.block)))
      hblock

/-- Settles O25: the command leaves the digest, so `TRUNC` writes the same results on either side of
it. -/
theorem truncCommutesWithTheCodec : Obligations.TruncCommutesWithTheCodec := by
  intro i s hi
  obtain ⟨v, hv, hdigest, -⟩ := codecCommandsLeaveTheTruncationUnit i s hi
  refine ⟨_, _, v, exec_trunc s, exec_setTrunc hi _ hv, hv, ?_⟩
  rw [exec_trunc, hdigest]

/-! ### What the encoder emits -/

/-- Every alphabet code is an upper-case letter or a digit from 2 to 7 (40_encoder.md R100). -/
theorem alphabet_ranges (g : Group) :
    (0x41 ≤ (alphabet g).toNat ∧ (alphabet g).toNat ≤ 0x5A) ∨
      (0x32 ≤ (alphabet g).toNat ∧ (alphabet g).toNat ≤ 0x37) := by
  have := g.isLt
  by_cases hg : g.toNat ≤ 25
  · rw [alphabet_toNat_of_le hg]
    omega
  · rw [alphabet_toNat_of_ge (by omega)]
    omega

/-- Neither `=` nor a lower-case letter is an alphabet code (40_encoder.md R107). -/
theorem alphabet_ne_padding_or_lower (g : Group) :
    alphabet g ≠ 0x3D#8 ∧ ¬(0x61 ≤ (alphabet g).toNat ∧ (alphabet g).toNat ≤ 0x7A) := by
  have hranges := alphabet_ranges g
  refine ⟨fun h => ?_, by omega⟩
  rw [h, BitVec.toNat_ofNat] at hranges
  omega

/-- The host reads alphabet codes, and at least one (40_encoder.md R107). -/
def Out.isAlphabetic (o : Out) : Prop :=
  0 < (outBytes (outWord o)).length ∧ ∀ c ∈ outBytes (outWord o), ∃ g, c = alphabet g

theorem isAlphabetic_one (g : Group) : (⟨1#2, alphabet g, 0#8⟩ : Out).isAlphabetic := by
  rw [Out.isAlphabetic, outBytes_one]
  simp

theorem isAlphabetic_two (g g' : Group) : (⟨2#2, alphabet g, alphabet g'⟩ : Out).isAlphabetic := by
  rw [Out.isAlphabetic, outBytes_two]
  simp

theorem isAlphabetic_encodeByte (x : Byte) (b : Block) : (encodeByte x b).out.isAlphabetic := by
  rcases Nat.lt_or_ge b.acc.cnt.toNat 2 with h2 | h2
  · rw [encodeByte_of_lt x b h2]
    exact isAlphabetic_one _
  · rw [encodeByte_of_le x b h2]
    exact isAlphabetic_two _ _

/-- An encoder command leaves `OUT`, or alphabet codes in it. -/
theorem CommandEffect.out_cases {i : Instr} {b b' : Block} (he : CommandEffect i b b')
    (hi : i = .encFlush ∨ ∃ x, i = .encByte x) : b'.out = b.out ∨ b'.out.isAlphabetic := by
  cases he with
  | refused c _ _ hb => subst hb; exact .inl rfl
  | encoded x _ _ _ hb => subst hb; exact .inr (isAlphabetic_encodeByte x b)
  | flushedEmpty _ _ _ hb => subst hb; exact .inl rfl
  | flushed g _ _ _ _ hb => subst hb; exact .inr (isAlphabetic_one _)
  | started m h _ => rcases h with ⟨rfl, -⟩ | ⟨rfl, -⟩ <;> simp at hi
  | unchanged h _ | skipped _ h _ _ _ | decoded _ _ h _ _ _ _ | ended h _ _
  | truncated h _ | reset h _ => simp [h] at hi

/-- Settles O16: what an encoder command emits is in the alphabet, which holds neither `=` nor a
lower-case letter. -/
theorem encoderEmitsOnlyAlphabetCodes : Obligations.EncoderEmitsOnlyAlphabetCodes := by
  intro i s t hi ht
  obtain ⟨u, hu, he, -⟩ := exec_effect i s
  cases ht.symm.trans hu
  refine (he.out_cases hi).imp_right fun ⟨hlen, hall⟩ => ⟨hlen, fun c hc => ?_⟩
  obtain ⟨g, rfl⟩ := hall c hc
  exact ⟨⟨g, rfl⟩, alphabet_ne_padding_or_lower g⟩

/-- Settles O15: with more than 5 bits pending the flushed group is the free value; with 15 two
groups leave and 13 bits are kept, whatever `BUF` then holds. -/
theorem overfullEncodeStillCompletes : Obligations.OverfullEncodeStillCompletes := by
  intro s hm hu
  constructor
  · intro h5
    have hc : s.block.acc.cnt ≠ 0#4 := (cnt_pos_iff _).1 (by omega)
    have hgroup : flushGroup s.block.acc (Config.freeValue 5 s.freeIdx) =
        Config.freeValue 5 s.freeIdx := by rw [flushGroup, if_neg (by omega)]
    have hfree : flushFree s.block.acc = 1 := by rw [flushFree, if_neg (by omega)]
    refine ⟨Config.freeValue 5 s.freeIdx, ?_⟩
    rw [exec_encFlush_of_read hm hc hu, flushPending, hgroup, hfree]
    rfl
  · intro b hc
    have h15 : s.block.acc.cnt.toNat = 15 := by rw [hc]; rfl
    refine ⟨(keepBits (s.block.acc.joinByte b).toNat 13).buf, ?_⟩
    rw [exec_encByte_of_read b hm hu, encodeByte_of_le b s.block (by omega), h15, groupAt_eq,
      groupAt_eq, joinByte_toNat]
    rfl

end Sys2Proof.Machine
end

section
/-! SUPPORT. Bit streams cut into values (00_scope.md R9; 40_encoder.md R101, R108; 41_decoder.md
R121, R127): the two whole-input functions as one cutting of a stream, value after value. -/

namespace Sys2Proof.Machine

/-! ### Positions -/

/-- Dropping the first bits of a stream shifts the positions (00_scope.md R9). -/
theorem bitsAt_drop (w k : Nat) (s : List Bool) (p : Nat) :
    bitsAt w (s.drop k) p = bitsAt w s (k + p) := by
  apply BitVec.eq_of_getLsbD_eq
  intro i hi
  rw [getLsbD_bitsAt _ _ _ _ hi, getLsbD_bitsAt _ _ _ _ hi, Nat.add_assoc]
  simp [List.getD_eq_getElem?_getD]

/-- The first bits of a stream do not depend on what follows them. -/
theorem bitsAt_append (w : Nat) (s rest : List Bool) (h : w ≤ s.length) :
    bitsAt w (s ++ rest) 0 = bitsAt w s 0 := by
  apply BitVec.eq_of_getLsbD_eq
  intro i hi
  rw [getLsbD_bitsAt _ _ _ _ hi, getLsbD_bitsAt _ _ _ _ hi, List.getD_append _ _ _ _ (by omega)]

/-! ### Cutting a stream -/

/-- The first `n` values of width `w` of a stream. -/
def cut (w n : Nat) (s : List Bool) : List (BitVec w) :=
  (List.range n).map fun j => bitsAt w s (w * j)

@[simp] theorem cut_zero (w : Nat) (s : List Bool) : cut w 0 s = [] := rfl

theorem length_cut (w n : Nat) (s : List Bool) : (cut w n s).length = n := by simp [cut]

theorem getD_cut {w n j : Nat} (s : List Bool) (h : j < n) :
    (cut w n s).getD j 0#w = bitsAt w s (w * j) := by
  simp [cut, h]

/-- The first value, and then the values of the stream behind it. -/
theorem cut_succ (w n : Nat) (s : List Bool) :
    cut w (n + 1) s = bitsAt w s 0 :: cut w n (s.drop w) := by
  simp only [cut, List.range_succ_eq_map, List.map_cons, List.map_map, bitsAt_drop]
  congr 1
  apply List.map_congr_left
  intro j _
  simp only [Function.comp_apply, Nat.mul_succ, Nat.add_comm]

/-- `encode` of a stream: the groups, the last one padded with zeros (40_encoder.md R101). -/
def encodeStream (s : List Bool) : List Byte := (cut 5 ((s.length + 4) / 5) s).map alphabet

/-- `decode` of a stream: the whole bytes (41_decoder.md R121). -/
def decodeStream (s : List Bool) : List Byte := cut 8 (s.length / 8) s

theorem encodeString_eq (b : List Byte) : encodeString b = encodeStream (byteStream b) := by
  rw [encodeStream, cut, List.map_map, byteStream, length_flatMap_bitsMsb]
  rfl

theorem decodeString_eq (cs : List Byte) :
    decodeString cs = decodeStream (groupStream (cs.filterMap lookup)) := rfl

theorem encodeStream_nil : encodeStream [] = [] := rfl

/-- Five bits leave as one character (40_encoder.md R103). -/
theorem encodeStream_append {s : List Bool} (rest : List Bool) (h : 5 ≤ s.length) :
    encodeStream (s ++ rest) = alphabet (bitsAt 5 s 0) :: encodeStream (s.drop 5 ++ rest) := by
  have hn : ((s ++ rest).length + 4) / 5 = ((s.drop 5 ++ rest).length + 4) / 5 + 1 := by
    simp only [List.length_append, List.length_drop]
    omega
  rw [encodeStream, hn, cut_succ, bitsAt_append 5 s rest h, List.drop_append_of_le_length h]
  rfl

/-- Fewer than five bits leave as one padded character (40_encoder.md R104). -/
theorem encodeStream_of_lt {s : List Bool} (hne : s.length ≠ 0) (h : s.length < 5) :
    encodeStream s = [alphabet (bitsAt 5 s 0)] := by
  have hn : (s.length + 4) / 5 = 1 := by omega
  rw [encodeStream, hn, cut_succ]
  rfl

/-- Eight bits leave as one byte (41_decoder.md R123). -/
theorem decodeStream_append {s : List Bool} (rest : List Bool) (h : 8 ≤ s.length) :
    decodeStream (s ++ rest) = bitsAt 8 s 0 :: decodeStream (s.drop 8 ++ rest) := by
  have hn : (s ++ rest).length / 8 = (s.drop 8 ++ rest).length / 8 + 1 := by
    simp only [List.length_append, List.length_drop]
    omega
  rw [decodeStream, hn, cut_succ, bitsAt_append 8 s rest h, List.drop_append_of_le_length h]
  rfl

/-- Fewer than eight bits are discarded (41_decoder.md R124). -/
theorem decodeStream_of_lt {s : List Bool} (h : s.length < 8) : decodeStream s = [] := by
  rw [decodeStream, Nat.div_eq_of_lt h, cut_zero]

/-! ### Lengths -/

theorem length_filterMap_lookup (cs : List Byte) :
    (cs.filterMap lookup).length = (cs.filter fun c => (lookup c).isSome).length := by
  rw [List.length_filterMap_eq_countP, List.countP_eq_length_filter]

theorem length_encodeString (b : List Byte) : (encodeString b).length = (8 * b.length + 4) / 5 := by
  simp [encodeString]

theorem length_decodeString (cs : List Byte) :
    (decodeString cs).length = 5 * (cs.filter fun c => (lookup c).isSome).length / 8 := by
  rw [decodeString_eq, decodeStream, length_cut, groupStream, length_flatMap_bitsMsb,
    length_filterMap_lookup]

/-- Settles O57: the lengths are those of the cut streams; the spec's strings are evaluated. -/
theorem stringLengthsAndNonInverses : Obligations.StringLengthsAndNonInverses :=
  ⟨length_encodeString, length_decodeString, by decide, by decide, by decide, by decide⟩

/-! ### `decode` after `encode` -/

/-- Decoding an encoded string reads back its groups (41_decoder.md R120). -/
theorem filterMap_lookup_map_alphabet (gs : List Group) :
    (gs.map alphabet).filterMap lookup = gs := by
  rw [List.filterMap_map, show lookup ∘ alphabet = some from funext lookup_alphabet,
    List.filterMap_some]

/-- Inside the cut values the stream of a cut stream is that stream. -/
theorem getD_stream_cut {w n k : Nat} (s : List Bool) (hw : 0 < w) (h : k < w * n) :
    ((cut w n s).flatMap bitsMsb).getD k false = s.getD k false := by
  have hr : k % w < w := Nat.mod_lt k hw
  have hj : k / w < n := Nat.div_lt_of_lt_mul h
  have hk : w * (k / w) + k % w = k := Nat.div_add_mod k w
  have hbit := getD_flatMap_bitsMsb (cut w n s) (k / w) (k % w) hr
  rw [hk, getD_cut s hj, getLsbD_bitsAt _ _ _ _ (by omega)] at hbit
  rw [hbit, show w - 1 - (w - 1 - k % w) = k % w by omega, hk]

/-- Settles O56: the groups cover the bytes' stream with fewer than 8 bits to spare, so cutting
their stream into bytes gives the bytes. -/
theorem decodeInvertsEncode : Obligations.DecodeInvertsEncode := by
  intro b
  have hlen : (byteStream b).length = 8 * b.length := length_flatMap_bitsMsb b
  rw [encodeString_eq, decodeString_eq, encodeStream, filterMap_lookup_map_alphabet, groupStream,
    decodeStream, length_flatMap_bitsMsb, length_cut, hlen,
    show 5 * ((8 * b.length + 4) / 5) / 8 = b.length by omega]
  apply List.ext_getElem
  · exact length_cut _ _ _
  · intro j hj hj'
    rw [← List.getD_eq_getElem _ 0#8 hj, ← List.getD_eq_getElem _ 0#8 hj', getD_cut _ hj',
      ← bitsAt_flatMap_bitsMsb b j]
    apply BitVec.eq_of_getLsbD_eq
    intro i hi
    rw [getLsbD_bitsAt _ _ _ _ hi, getLsbD_bitsAt _ _ _ _ hi]
    exact getD_stream_cut _ (by decide) (by omega)

end Sys2Proof.Machine
end

section
/-! SUPPORT. Host programs run on a block (30_encoding.md R89; 20_memory.md R67;
70_reset_and_hazards.md R212): one rule for each access form and one for sequence, and `TOTP.CODE`
run by them. -/

namespace Sys2Proof.Machine

/-- The program `p` takes the block `b` to `b'` and reads `ws`, from every state that holds `b` with
reset released, and leaves the rest of the state. -/
def Runs (p : List Access) (b b' : Block) (ws : List Word) : Prop :=
  ∀ s : State, s.inReset = false → s.block = b →
    runProgram p s = .next { s with block := b', reads := s.reads ++ ws }

section
variable {p q : List Access} {b b' b'' : Block} {ws vs : List Word}

theorem Runs.nil (b : Block) : Runs [] b b [] := by
  rintro s - rfl
  simp [runProgram, runSteps, State.withProgram]

/-- Programs run one after the other (20_memory.md R67). -/
theorem Runs.append (hp : Runs p b b' ws) (hq : Runs q b' b'' vs) :
    Runs (p ++ q) b b'' (ws ++ vs) := by
  intro s hr hb
  obtain ⟨-, hseq⟩ := programsRunInSequence p q s _ (hp (s.withProgram q) hr hb)
  have hthen := hq { s with block := b', reads := s.reads ++ ws } hr rfl
  rw [List.append_assoc] at hthen
  exact hseq.trans hthen

/-- A program of one access is one step. -/
theorem runProgram_singleton {a : Access} {s t : State} (h : step (s.withProgram [a]) = .next t) :
    runProgram [a] s = .next t := (runSteps_succ h).trans rfl

theorem Runs.read (r : Reg) (b : Block) : Runs [hostRead r] b (afterRead r b) [readReg b r] := by
  rintro s hr rfl
  exact runProgram_singleton (step_read (s.withProgram [hostRead r]) r s.pending hr rfl)

theorem Runs.write {r : Reg} (hr : r ≠ .cmd) (v : Word) (b : Block) :
    Runs [hostWrite r v] b (afterWrite r v b) [] := by
  rintro s hs rfl
  refine (runProgram_singleton
    (step_write (s.withProgram [hostWrite r v]) r v s.pending hs hr rfl)).trans ?_
  simp [State.withProgram, State.setPending, State.setBlock]

/-- The `CMD` write of a command's word runs the command (30_encoding.md R87). -/
theorem Runs.command {i : Instr} (h : ∀ s : State, s.block = b → exec i s = .next (s.setBlock b')) :
    Runs [hostCommand i] b b' [] := by
  intro s hs hb
  have hstep := step_command (s.withProgram [hostCommand i]) (encode i) s.pending hs rfl
  rw [execCommandWord_of_ok (decode_encode i), h ((s.withProgram _).setPending _) hb] at hstep
  refine (runProgram_singleton hstep).trans ?_
  simp [State.withProgram, State.setPending, State.setBlock]

/-- A program run on a block is observed as its reads and the block it leaves
(70_reset_and_hazards.md R212). -/
theorem Runs.runFrom (h : Runs p b b' ws) :
    runFrom p b = ({ State.reset with block := b', reads := ws }, .completed) :=
  runToEnd_of_next (h (State.reset.setBlock b) rfl rfl)

end

/-! ### `TOTP.CODE` -/

theorem runs_loadDigest (d : Digest) (b : Block) :
    Runs (loadDigest d) b (b.setDigest d) [] :=
  (Runs.write (r := .digest0) nofun d.w0 b).append <|
    (Runs.write (r := .digest1) nofun d.w1 _).append <|
    (Runs.write (r := .digest2) nofun d.w2 _).append <|
    (Runs.write (r := .digest3) nofun d.w3 _).append (Runs.write (r := .digest4) nofun d.w4 _)

theorem runs_trunc (b : Block) :
    Runs [hostCommand .trunc] b (b.setTrunc (truncate b.digest)) [] :=
  Runs.command fun _ hb => hb ▸ rfl

/-- `TOTP.CODE d` reads the code and the digits of `d` (30_encoding.md R89). -/
theorem runs_totpCode (d : Digest) (b : Block) :
    Runs (totpCode d) b ((b.setDigest d).setTrunc (truncate d))
      [trCodeWord (truncate d), trAscii0Word (truncate d), trAscii1Word (truncate d)] :=
  (runs_loadDigest d b).append <| (runs_trunc _).append <| (Runs.read .trCode _).append <|
    (Runs.read .trAscii0 _).append (Runs.read .trAscii1 _)

/-- Settles O27: the accesses of `TOTP.CODE d` one by one. -/
theorem loadedDigestGivesItsCode : Obligations.LoadedDigestGivesItsCode := by
  intro d b
  rw [programEnd, observe, (runs_totpCode d b).runFrom]
  exact ⟨rfl, rfl⟩

end Sys2Proof.Machine
end

section
/-! SUPPORT. The accumulator as pending stream bits (10_state.md R30): what the commands take from
it and leave in it, said of the stream (40_encoder.md R103, R104; 41_decoder.md R123). -/

namespace Sys2Proof.Machine

/-- The low bits of `v` are the bits of `p`, the first bit of `p` highest (00_scope.md R9). -/
def HoldsBits (v : Nat) (p : List Bool) : Prop :=
  ∀ i < p.length, v.testBit i = p.getD (p.length - 1 - i) false

/-- The pending bits of the accumulator are `p`, earliest first (10_state.md R30). -/
def Acc.pends (a : Acc) (p : List Bool) : Prop :=
  a.cnt.toNat = p.length ∧ HoldsBits a.buf.toNat p

theorem pends_nil : (⟨0#12, 0#4⟩ : Acc).pends [] := ⟨rfl, nofun⟩

/-- Joining a value to pending bits appends its bits. -/
theorem HoldsBits.append {n w : Nat} {v : BitVec n} {p : List Bool} (h : HoldsBits v.toNat p)
    (x : BitVec w) : HoldsBits (v ++ x).toNat (p ++ bitsMsb x) := by
  intro i hi
  rw [List.length_append, length_bitsMsb] at hi ⊢
  rw [BitVec.testBit_toNat, BitVec.getLsbD_append]
  by_cases hiw : i < w
  · rw [List.getD_append_right _ _ _ _ (by omega), getD_bitsMsb x _ (by omega), if_pos hiw]
    congr 1
    omega
  · rw [List.getD_append _ _ _ _ (by omega), if_neg hiw, ← BitVec.testBit_toNat, h _ (by omega)]
    congr 1
    omega

/-- The bits behind the first `k` stay where they are. -/
theorem HoldsBits.drop {v : Nat} {p : List Bool} (h : HoldsBits v p) (k : Nat) :
    HoldsBits v (p.drop k) := by
  intro i hi
  rw [List.length_drop] at hi ⊢
  rw [h i (by omega), List.getD_eq_getElem?_getD, List.getD_eq_getElem?_getD, List.getElem?_drop]
  congr 2
  omega

/-- The highest `w` bits are the first value of the stream (40_encoder.md R103; 41_decoder.md
R123). -/
theorem HoldsBits.ofNat_shiftRight {v w : Nat} {p : List Bool} (h : HoldsBits v p)
    (hw : w ≤ p.length) : BitVec.ofNat w (v >>> (p.length - w)) = bitsAt w p 0 := by
  apply BitVec.eq_of_getLsbD_eq
  intro i hi
  rw [BitVec.getLsbD_ofNat, getLsbD_bitsAt _ _ _ _ hi, Nat.testBit_shiftRight, h _ (by omega)]
  simp only [hi, decide_true, Bool.true_and]
  congr 1
  omega

/-- The kept bits are the pending ones (10_state.md R30). -/
theorem HoldsBits.keepBits {v : Nat} {p : List Bool} (h : HoldsBits v p) (hp : p.length ≤ 12) :
    (keepBits v p.length).pends p := by
  refine ⟨keepBits_cnt_toNat v _ (by omega), fun i hi => ?_⟩
  rw [keepBits_buf_toNat v _ hp, Nat.testBit_mod_two_pow, decide_eq_true hi, Bool.true_and]
  exact h i hi

/-- Fewer than 5 pending bits padded with zeros are the last group of the stream (40_encoder.md
R104). -/
theorem flushGroup_of_pends {a : Acc} {p : List Bool} (h : a.pends p) (hp : p.length < 5)
    (free : Group) : flushGroup a free = bitsAt 5 p 0 := by
  obtain ⟨hcnt, hbits⟩ := h
  rw [flushGroup, if_pos (by omega), hcnt]
  apply BitVec.eq_of_getLsbD_eq
  intro i hi
  rw [BitVec.getLsbD_ofNat, Nat.testBit_shiftLeft, getLsbD_bitsAt _ _ _ _ hi]
  by_cases hpad : 5 - p.length ≤ i
  · rw [hbits _ (by omega)]
    simp only [hi, hpad, decide_true, Bool.true_and]
    congr 1
    omega
  · rw [List.getD_eq_default _ _ (by omega)]
    simp [hpad]

/-! ### One accepted input -/

section
variable {b : Block} {p : List Bool}

/-- The characters an accepted byte emits are the first of the stream, and the rest stays pending
(40_encoder.md R103). -/
theorem encodeByte_pends (x : Byte) (h : b.acc.pends p) (hp : p.length ≤ 4) :
    ∃ p', p'.length = (p.length + 8) % 5 ∧ (encodeByte x b).acc.pends p' ∧
      ∀ rest, encodeStream (p ++ bitsMsb x ++ rest) =
        outBytes (outWord (encodeByte x b).out) ++ encodeStream (p' ++ rest) := by
  obtain ⟨hcnt, hbits⟩ := h
  have hq : HoldsBits (b.acc.joinByte x).toNat (p ++ bitsMsb x) := hbits.append x
  have hlen : (p ++ bitsMsb x).length = p.length + 8 := by simp
  generalize p ++ bitsMsb x = q at hq hlen ⊢
  have hg0 : groupAt (b.acc.joinByte x).toNat (p.length + 3) = bitsAt 5 q 0 := by
    rw [← hq.ofNat_shiftRight (by omega), hlen]
    rfl
  have hdrop : (q.drop 5).length = p.length + 3 := by rw [List.length_drop, hlen]; omega
  rcases Nat.lt_or_ge p.length 2 with h2 | h2
  · refine ⟨q.drop 5, by omega, ?_, fun rest => ?_⟩
    · rw [encodeByte_of_lt x b (by omega), hcnt, ← hdrop]
      exact (hq.drop 5).keepBits (by omega)
    · rw [encodeByte_of_lt x b (by omega), hcnt, hg0, encodeStream_append rest (by omega)]
      simp [outBytes_one]
  · have hdrop' : ((q.drop 5).drop 5).length = p.length - 2 := by rw [List.length_drop, hdrop]; omega
    have hg1 : groupAt (b.acc.joinByte x).toNat (p.length - 2) = bitsAt 5 (q.drop 5) 0 := by
      rw [← (hq.drop 5).ofNat_shiftRight (by omega), hdrop]
      rfl
    refine ⟨(q.drop 5).drop 5, by omega, ?_, fun rest => ?_⟩
    · rw [encodeByte_of_le x b (by omega), hcnt, ← hdrop']
      exact ((hq.drop 5).drop 5).keepBits (by omega)
    · rw [encodeByte_of_le x b (by omega), hcnt, hg0, hg1, encodeStream_append rest (by omega),
        encodeStream_append rest (by omega)]
      simp [outBytes_two]

/-- With fewer than 3 bits pending an accepted character only joins them (41_decoder.md R123). -/
theorem decodeGroup_pends_of_lt (x : Group) (h : b.acc.pends p) (hp : p.length < 3) :
    (decodeGroup x b).acc.pends (p ++ bitsMsb x) := by
  obtain ⟨hcnt, hbits⟩ := h
  have hlen : (p ++ bitsMsb x).length = p.length + 5 := by simp
  rw [decodeGroup_of_lt x b (by omega), hcnt, ← hlen]
  exact HoldsBits.keepBits (hbits.append x) (by omega)

/-- With 3 to 7 bits pending an accepted character emits the first byte of the stream, and the rest
stays pending (41_decoder.md R123). -/
theorem decodeGroup_pends_of_le (x : Group) (h : b.acc.pends p) (h3 : 3 ≤ p.length)
    (hp : p.length ≤ 7) :
    ∃ p', p'.length = p.length - 3 ∧ (decodeGroup x b).acc.pends p' ∧
      ∀ rest, decodeStream (p ++ bitsMsb x ++ rest) =
        outBytes (outWord (decodeGroup x b).out) ++ decodeStream (p' ++ rest) := by
  obtain ⟨hcnt, hbits⟩ := h
  have hq : HoldsBits (b.acc.joinGroup x).toNat (p ++ bitsMsb x) := hbits.append x
  have hlen : (p ++ bitsMsb x).length = p.length + 5 := by simp
  generalize p ++ bitsMsb x = q at hq hlen ⊢
  have hbyte : byteAt (b.acc.joinGroup x).toNat (p.length - 3) = bitsAt 8 q 0 := by
    rw [← hq.ofNat_shiftRight (by omega), hlen]
    rfl
  have hdrop : (q.drop 8).length = p.length - 3 := by rw [List.length_drop, hlen]; omega
  refine ⟨q.drop 8, hdrop, ?_, fun rest => ?_⟩
  · rw [decodeGroup_of_le x b (by omega), hcnt, ← hdrop]
    exact (hq.drop 8).keepBits (by omega)
  · rw [decodeGroup_of_le x b (by omega), hcnt, hbyte, decodeStream_append rest (by omega)]
    simp [outBytes_one]

end

end Sys2Proof.Machine
end

section
/-! SUPPORT. The `ENCODE` sequence (40_encoder.md R105): a run over the bytes whose pending bits,
with the bits of the bytes to come, are the stream still to be encoded. -/

namespace Sys2Proof.Machine

/-- The program refuses no command on `b`, its reads return `out`, and it ends idle with all output
read (40_encoder.md R105). -/
def Encodes (prog : List Access) (b : Block) (out : List Byte) : Prop :=
  ∃ b' ws, Runs prog b b' ws ∧ ws.flatMap outBytes = out ∧ b'.err = b.err ∧ b'.mode = Mode.idle ∧
    b'.outUnread = false

theorem Encodes.cons {p q : List Access} {b b₁ : Block} {ws : List Word} {out : List Byte}
    (hp : Runs p b b₁ ws) (he : b₁.err = b.err) (hq : Encodes q b₁ out) :
    Encodes (p ++ q) b (ws.flatMap outBytes ++ out) := by
  obtain ⟨b', vs, hrun, hout, herr, hend⟩ := hq
  refine ⟨b', ws ++ vs, hp.append hrun, ?_, herr.trans he, hend⟩
  rw [List.flatMap_append, hout]

section
variable {b : Block} {p : List Bool} {k : Nat}

/-- `C enc.byte.rd x` with output read emits and reads it (30_encoding.md R89). -/
theorem runs_encByteRd (x : Byte) (hm : b.mode = Mode.enc) (hu : b.outUnread = false) :
    Runs (encByteRd x) b (encodeByte x b).takeOut [outWord (encodeByte x b).out] := by
  have hcmd : Runs [hostCommand (.encByte x)] b (encodeByte x b) [] := Runs.command fun s hs => by
    subst hs
    exact exec_encByte_of_read x hm hu
  exact hcmd.append (Runs.read .out _)

/-- `C enc.flush.rd` after `k` bytes emits and reads what is left of the stream (30_encoding.md R89;
40_encoder.md R104). -/
theorem encodes_encFlushRd (hm : b.mode = Mode.enc) (hu : b.outUnread = false) (hp : b.acc.pends p)
    (hk : p.length = 8 * k % 5) : Encodes (encFlushRd k) b (encodeStream p) := by
  have hcnt := hp.1
  by_cases h0 : 8 * k % 5 = 0
  · have hnil : p = [] := List.eq_nil_of_length_eq_zero (hk.trans h0)
    have hc : b.acc.cnt = 0#4 := BitVec.eq_of_toNat_eq (hcnt.trans (hk.trans h0))
    have hcmd : Runs [hostCommand .encFlush] b b.endOp [] := Runs.command fun s hs => by
      subst hs
      exact exec_encFlush_of_empty hm hc
    rw [encFlushRd, if_pos h0, hnil, encodeStream_nil]
    exact ⟨_, _, hcmd, rfl, rfl, rfl, hu⟩
  · have hc : b.acc.cnt ≠ 0#4 := (cnt_pos_iff _).1 (by omega)
    have hgroup (g : Group) : flushGroup b.acc g = bitsAt 5 p 0 :=
      flushGroup_of_pends hp (by omega) g
    have hflush (g : Group) : flushPending g b = flushPending 0#5 b := by
      rw [flushPending, flushPending, hgroup, hgroup]
    have hcmd : Runs [hostCommand .encFlush] b (flushPending 0#5 b) [] := Runs.command fun s hs => by
      subst hs
      rw [exec_encFlush_of_read hm hc hu, hflush, flushFree_of_le _ (by omega)]
      rfl
    rw [encFlushRd, if_neg h0, encodeStream_of_lt (by omega) (by omega), ← hgroup 0#5]
    refine ⟨_, _, hcmd.append (Runs.read .out _), ?_, rfl, rfl, rfl⟩
    exact (List.append_nil _).trans (outBytes_one _ _)

/-- The bytes and the flush encode the pending bits followed by the bytes' stream (40_encoder.md
R105). -/
theorem encodes_bytes (bs : List Byte) (hm : b.mode = Mode.enc) (hu : b.outUnread = false)
    (hp : b.acc.pends p) (hk : p.length = 8 * k % 5) :
    Encodes (bs.flatMap encByteRd ++ encFlushRd (k + bs.length)) b
      (encodeStream (p ++ byteStream bs)) := by
  induction bs generalizing b p k with
  | nil =>
    rw [byteStream, List.flatMap_nil, List.flatMap_nil, List.append_nil]
    exact encodes_encFlushRd hm hu hp hk
  | cons x bs ih =>
    obtain ⟨p', hlen, hp', hstream⟩ := encodeByte_pends x hp (by omega)
    have hrest := ih (b := (encodeByte x b).takeOut) (k := k + 1) (by simp [hm]) rfl hp' (by omega)
    have hall := Encodes.cons (runs_encByteRd x hm hu) (encodeByte_err x b) hrest
    have hbits : p ++ byteStream (x :: bs) = p ++ bitsMsb x ++ byteStream bs := by
      rw [List.append_assoc]
      rfl
    rw [hbits, hstream, List.flatMap_cons, List.append_assoc, List.length_cons, Nat.add_comm _ 1,
      ← Nat.add_assoc]
    rwa [List.flatMap_singleton] at hall

theorem encodes_encodeProgram (bs : List Byte) (hu : b.outUnread = false) :
    Encodes (encodeProgram bs) b (encodeString bs) := by
  have hstart : Runs [hostCommand .encStart] b (b.startOp Mode.enc) [] :=
    Runs.command fun s hs => by rw [exec_encStart, hs]
  have hbytes := encodes_bytes (b := b.startOp Mode.enc) (k := 0) bs rfl hu pends_nil rfl
  rw [Nat.zero_add, List.nil_append, ← encodeString_eq] at hbytes
  exact Encodes.cons hstart rfl hbytes

end

/-- Settles O54: the run of the `ENCODE` program on the block of the state. -/
theorem encodeSequenceComputesEncode : Obligations.EncodeSequenceComputesEncode := by
  intro bs s hr hu
  obtain ⟨b', ws, hrun, hout, herr, hmode, hread⟩ := encodes_encodeProgram bs hu
  exact ⟨_, ws, hrun s hr rfl, rfl, hout, rfl, herr, hmode, hread⟩

end Sys2Proof.Machine
end

section
/-! SUPPORT. The `DECODE` sequence (41_decoder.md R125): the block after the characters as one fold
over them, the bits still to be decoded along that fold, and its counters and errors. -/

namespace Sys2Proof.Machine

/-! ### The block after the characters -/

/-- The block after `C dec.char.rd c` (30_encoding.md R89): an emitted byte is read at once. -/
def fedChar (b : Block) (c : Byte) : Block :=
  match lookup c with
  | none => skipChar b
  | some x => (decodeGroup x b).takeOut

theorem fedChar_of_unknown {c : Byte} (hl : lookup c = none) (b : Block) :
    fedChar b c = skipChar b := by rw [fedChar, hl]

theorem fedChar_of_known {c : Byte} {x : Group} (hl : lookup c = some x) (b : Block) :
    fedChar b c = (decodeGroup x b).takeOut := by rw [fedChar, hl]

section
variable (c : Byte) {b : Block}

@[simp] theorem fedChar_mode : (fedChar b c).mode = b.mode := by
  cases hl : lookup c with
  | none => rw [fedChar_of_unknown hl, skipChar_mode]
  | some x => rw [fedChar_of_known hl, Block.takeOut_mode, decodeGroup_mode]

@[simp] theorem fedChar_strict : (fedChar b c).strict = b.strict := by
  cases hl : lookup c with
  | none => rw [fedChar_of_unknown hl, skipChar_strict]
  | some x => rw [fedChar_of_known hl, Block.takeOut_strict, decodeGroup_strict]

theorem fedChar_outUnread (hu : b.outUnread = false) : (fedChar b c).outUnread = false := by
  cases hl : lookup c with
  | none => rw [fedChar_of_unknown hl, skipChar_outUnread, hu]
  | some x => rw [fedChar_of_known hl, Block.takeOut_outUnread]

theorem fedChar_err : (fedChar b c).err =
    if (b.strict && (lookup c).isNone) = true then recordError .badchar b.err else b.err := by
  cases hl : lookup c with
  | none => simp [fedChar_of_unknown hl]
  | some x => simp [fedChar_of_known hl]

theorem fedChar_input : (fedChar b c).counters.input.toNat =
    min (b.counters.input.toNat + (lookup c).isSome.toNat) Config.counterMax := by
  cases hl : lookup c with
  | none =>
    rw [fedChar_of_unknown hl, skipChar_counters_input]
    exact toNat_eq_min _
  | some x =>
    rw [fedChar_of_known hl, Block.takeOut_counters, decodeGroup_counters_input, satInc_toNat]
    rfl

theorem fedChar_skip : (fedChar b c).counters.skip.toNat =
    min (b.counters.skip.toNat + (lookup c).isNone.toNat) Config.counterMax := by
  cases hl : lookup c with
  | none =>
    rw [fedChar_of_unknown hl, skipChar_counters_skip, satInc_toNat]
    rfl
  | some x =>
    rw [fedChar_of_known hl, Block.takeOut_counters, decodeGroup_counters_skip]
    exact toNat_eq_min _

theorem fedChar_arith (h : b.acc.cnt.toNat ≤ 7) :
    (fedChar b c).acc.cnt.toNat = (b.acc.cnt.toNat + 5 * (lookup c).isSome.toNat) % 8 ∧
    (fedChar b c).counters.output.toNat =
      min (b.counters.output.toNat + (b.acc.cnt.toNat + 5 * (lookup c).isSome.toNat) / 8)
        Config.counterMax := by
  cases hl : lookup c with
  | none =>
    rw [fedChar_of_unknown hl, skipChar_acc, skipChar_counters_output, Option.isSome_none,
      Bool.toNat_false, Nat.mul_zero, Nat.add_zero, Nat.mod_eq_of_lt (by omega),
      Nat.div_eq_of_lt (by omega)]
    exact ⟨rfl, toNat_eq_min _⟩
  | some x =>
    rw [fedChar_of_known hl]
    exact decodeGroup_arith x h

end

theorem length_filter_cons {α : Type} (f : α → Bool) (a : α) (l : List α) :
    ((a :: l).filter f).length = (f a).toNat + (l.filter f).length := by
  cases hf : f a <;> simp [hf, Nat.add_comm]

/-- A saturating count of two amounts is the count of their sum (10_state.md R33). -/
theorem min_add_min (a m n M : Nat) : min (min (a + m) M + n) M = min (a + (m + n)) M := by omega

section
variable (cs : List Byte) (b : Block)

theorem foldl_fedChar_mode : (cs.foldl fedChar b).mode = b.mode := by
  induction cs generalizing b with
  | nil => rfl
  | cons c cs ih => rw [List.foldl_cons, ih, fedChar_mode]

theorem foldl_fedChar_outUnread (hu : b.outUnread = false) :
    (cs.foldl fedChar b).outUnread = false := by
  induction cs generalizing b with
  | nil => exact hu
  | cons c cs ih => exact ih _ (fedChar_outUnread c hu)

/-- `IN_COUNT` counts the known characters (41_decoder.md R125). -/
theorem foldl_fedChar_input : (cs.foldl fedChar b).counters.input.toNat =
    min (b.counters.input.toNat + (cs.filter fun c => (lookup c).isSome).length)
      Config.counterMax := by
  induction cs generalizing b with
  | nil => exact toNat_eq_min _
  | cons c cs ih =>
    rw [List.foldl_cons, ih, fedChar_input, length_filter_cons, min_add_min]

/-- `SKIP_COUNT` counts the unknown characters (41_decoder.md R125). -/
theorem foldl_fedChar_skip : (cs.foldl fedChar b).counters.skip.toNat =
    min (b.counters.skip.toNat + (cs.filter fun c => (lookup c).isNone).length)
      Config.counterMax := by
  induction cs generalizing b with
  | nil => exact toNat_eq_min _
  | cons c cs ih =>
    rw [List.foldl_cons, ih, fedChar_skip, length_filter_cons, min_add_min]

/-- `OUT_COUNT` counts the whole bytes (41_decoder.md R126). -/
theorem foldl_fedChar_output (h : b.acc.cnt.toNat ≤ 7) :
    (cs.foldl fedChar b).counters.output.toNat =
      min (b.counters.output.toNat +
        (b.acc.cnt.toNat + 5 * (cs.filter fun c => (lookup c).isSome).length) / 8)
        Config.counterMax := by
  induction cs generalizing b with
  | nil =>
    have hzero : (b.acc.cnt.toNat + 5 * 0) / 8 = 0 := by omega
    rw [List.filter_nil, List.length_nil, hzero]
    exact toNat_eq_min _
  | cons c cs ih =>
    obtain ⟨hcnt, hout⟩ := fedChar_arith c h
    rw [List.foldl_cons, ih _ (by omega), hcnt, hout, length_filter_cons, min_add_min]
    congr 2
    omega

/-- `BADCHAR` is recorded exactly for an unknown character under `STRICT` (41_decoder.md R125;
60_exceptions.md R177). -/
theorem foldl_fedChar_err : (cs.foldl fedChar b).err =
    if (b.strict && cs.any fun c => (lookup c).isNone) = true then recordError .badchar b.err
    else b.err := by
  induction cs generalizing b with
  | nil => simp
  | cons c cs ih =>
    rw [List.foldl_cons, ih, fedChar_err, fedChar_strict, List.any_cons]
    cases b.strict <;> cases (lookup c).isNone <;> simp [recordError]

end

/-! ### The run -/

/-- A decode after `m` known characters with output read: the pending bits are `p`, as many as the
host's own count says (30_encoding.md R89; 41_decoder.md R126). -/
structure Decoding (m : Nat) (b : Block) (p : List Bool) : Prop where
  mode : b.mode = Mode.dec
  read : b.outUnread = false
  pends : b.acc.pends p
  count : p.length = 5 * m % 8

theorem takeOut_of_read {b : Block} (hu : b.outUnread = false) : b.takeOut = b := by
  rw [Block.takeOut, ← hu]

section
variable {m : Nat} {b : Block} {p : List Bool}

/-- An unknown character emits nothing and leaves the pending bits (41_decoder.md R123). -/
theorem runs_decCharRd_of_unknown {c : Byte} (hl : lookup c = none) (h : Decoding m b p) :
    Runs (decCharRd m c) b (fedChar b c) [] ∧ Decoding (knownAfter m c) (fedChar b c) p := by
  have hcmd : Runs [hostCommand (.decChar c)] b (skipChar b) [] := Runs.command fun s hs => by
    subst hs
    exact exec_decChar_of_unknown h.mode hl
  rw [decCharRd, if_neg (by simp [hl]), knownAfter, if_neg (by simp [hl]), fedChar_of_unknown hl]
  refine ⟨hcmd, ?_, ?_, ?_, h.count⟩
  · rw [skipChar_mode, h.mode]
  · rw [skipChar_outUnread, h.read]
  · rw [skipChar_acc]
    exact h.pends

/-- A known character emits the first byte of the stream, which is read at once, or nothing
(41_decoder.md R123). -/
theorem runs_decCharRd_of_known {c : Byte} {x : Group} (hl : lookup c = some x)
    (h : Decoding m b p) : ∃ p' ws, Runs (decCharRd m c) b (fedChar b c) ws ∧
      Decoding (knownAfter m c) (fedChar b c) p' ∧
      ∀ rest, decodeStream (p ++ bitsMsb x ++ rest) =
        ws.flatMap outBytes ++ decodeStream (p' ++ rest) := by
  have hcount := h.count
  have hcmd : Runs [hostCommand (.decChar c)] b (decodeGroup x b) [] := Runs.command fun s hs => by
    subst hs
    exact exec_decChar_of_known h.mode hl (by simp [h.read])
  have hmode : (decodeGroup x b).takeOut.mode = Mode.dec := by simp [h.mode]
  rw [knownAfter, if_pos (by simp [hl]), fedChar_of_known hl]
  by_cases h3 : 3 ≤ 5 * m % 8
  · obtain ⟨p', hlen, hp', hstream⟩ := decodeGroup_pends_of_le x h.pends (by omega) (by omega)
    rw [decCharRd, if_pos ⟨by simp [hl], h3⟩]
    refine ⟨p', _, hcmd.append (Runs.read .out _), ⟨hmode, rfl, hp', by omega⟩, fun rest => ?_⟩
    rw [hstream, List.nil_append, List.flatMap_singleton]
    rfl
  · have hread : (decodeGroup x b).outUnread = false := by
      rw [decodeGroup_outUnread, h.read, h.pends.1, decide_eq_false (by omega), Bool.false_or]
    have hlen : (p ++ bitsMsb x).length = p.length + 5 := by simp
    rw [decCharRd, if_neg (by omega)]
    refine ⟨p ++ bitsMsb x, [], ?_, ⟨hmode, rfl, ?_, by omega⟩, fun rest => rfl⟩
    · rwa [takeOut_of_read hread]
    · exact decodeGroup_pends_of_lt x h.pends (by omega)

/-- The characters' reads return the bytes of the pending bits followed by the characters' stream
(41_decoder.md R125). -/
theorem runs_decCharsRd (cs : List Byte) (h : Decoding m b p) :
    ∃ ws, Runs (decCharsRd m cs) b (cs.foldl fedChar b) ws ∧
      ws.flatMap outBytes = decodeStream (p ++ groupStream (cs.filterMap lookup)) := by
  induction cs generalizing m b p with
  | nil =>
    have hcount := h.count
    refine ⟨[], Runs.nil b, ?_⟩
    rw [List.filterMap_nil, groupStream, List.flatMap_nil, List.flatMap_nil, List.append_nil,
      decodeStream_of_lt (by omega)]
  | cons c cs ih =>
    cases hl : lookup c with
    | none =>
      obtain ⟨hrun, hready⟩ := runs_decCharRd_of_unknown hl h
      obtain ⟨ws, hruns, hout⟩ := ih hready
      refine ⟨ws, hrun.append hruns, ?_⟩
      rw [hout, List.filterMap_cons_none hl]
    | some x =>
      obtain ⟨p', vs, hrun, hready, hstream⟩ := runs_decCharRd_of_known hl h
      obtain ⟨ws, hruns, hout⟩ := ih hready
      refine ⟨vs ++ ws, hrun.append hruns, ?_⟩
      rw [List.flatMap_append, hout, ← hstream, List.filterMap_cons_some hl, List.append_assoc]
      rfl

end

/-- The `DECODE` program leaves the block the characters and `DEC_END` make of a started decode, and
reads `decode(s)` (41_decoder.md R125). -/
theorem runs_decodeProgram (cs : List Byte) {b : Block} (hu : b.outUnread = false) :
    ∃ ws, Runs (decodeProgram cs) b (endDecode (cs.foldl fedChar (b.startOp Mode.dec))) ws ∧
      ws.flatMap outBytes = decodeString cs := by
  have hstart : Runs [hostCommand .decStart] b (b.startOp Mode.dec) [] :=
    Runs.command fun s hs => by rw [exec_decStart, hs]
  obtain ⟨ws, hchars, hout⟩ :=
    runs_decCharsRd cs (m := 0) (b := b.startOp Mode.dec) ⟨rfl, hu, pends_nil, rfl⟩
  have hend : Runs [hostCommand .decEnd] (cs.foldl fedChar (b.startOp Mode.dec))
      (endDecode (cs.foldl fedChar (b.startOp Mode.dec))) [] := Runs.command fun s hs => by
    rw [exec_decEnd_of_dec (by rw [hs, foldl_fedChar_mode]; rfl), hs]
  refine ⟨[] ++ (ws ++ []), hstart.append (hchars.append hend), ?_⟩
  rw [List.nil_append, List.append_nil, hout, List.nil_append, decodeString_eq]

/-- `OUT_COUNT` is 0 at the end exactly when nothing was decoded (41_decoder.md R125). -/
theorem foldl_fedChar_output_eq_zero_iff (cs : List Byte) (b : Block) :
    (cs.foldl fedChar (b.startOp Mode.dec)).counters.output = 0#32 ↔
      (decodeString cs).isEmpty = true := by
  have hout := foldl_fedChar_output cs (b.startOp Mode.dec) (Nat.zero_le 7)
  rw [List.isEmpty_iff_length_eq_zero, length_decodeString, ← BitVec.toNat_inj, hout]
  simp only [Block.startOp_counters, Block.startOp_acc, BitVec.toNat_ofNat, Config.counterMax]
  omega

/-- The error fields after a decode that may have recorded `BADCHAR` and then `EMPTY`
(60_exceptions.md R172): only those two bits may be set anew. -/
theorem recordError_badchar_empty (e : Errors) (bad emp : Bool) :
    let e₁ := if bad = true then recordError .badchar e else e
    let e₂ := if emp = true then recordError .empty e₁ else e₁
    e₂.illegal = e.illegal ∧ e₂.seq = e.seq ∧ e₂.ovr = e.ovr ∧
      e₂.badchar = (e.badchar || bad) ∧ e₂.empty = (e.empty || emp) := by
  cases bad <;> cases emp <;> simp [recordError]

/-- Settles O55: the run of the `DECODE` program on the block of the state, its counters and errors
read off the fold over the characters. -/
theorem decodeSequenceComputesDecode : Obligations.DecodeSequenceComputesDecode := by
  intro cs s hr hu
  obtain ⟨ws, hrun, hout⟩ := runs_decodeProgram cs hu
  refine ⟨_, ws, hrun s hr rfl, rfl, hout, rfl, ?_⟩
  dsimp only
  rw [endDecode_mode, endDecode_outUnread, endDecode_counters, endDecode_err, foldl_fedChar_err,
    foldl_fedChar_input, foldl_fedChar_skip]
  refine ⟨rfl, foldl_fedChar_outUnread cs _ hu, ?_, ?_, ?_⟩
  · rw [Block.startOp_counters, BitVec.toNat_ofNat, Nat.zero_mod, Nat.zero_add]
  · rw [Block.startOp_counters, BitVec.toNat_ofNat, Nat.zero_mod, Nat.zero_add]
  · simp only [foldl_fedChar_output_eq_zero_iff]
    exact recordError_badchar_empty _ _ _

end Sys2Proof.Machine
end
